-- ==== Sys2Proof/Word.lean ====
section
/-! DEFINITION. The byte, the byte string and the lookup of one byte of a byte string (`00_scope.md` R7, R8). -/

namespace Sys2Proof

/-- `u8`: an integer in 0 to 255 (R7). -/
abbrev Byte := BitVec 8

/-- A finite byte string, offset 0 first (R8): a CandidateFrame, a ValidatedFrame, an OutboundFrame. -/
abbrev Frame := List Byte

/-- `f[i]` of R8, total: 0 outside the string. A use of it stands under a length guard. -/
def byteAt (f : Frame) (i : Nat) : Byte := f.getD i 0

end Sys2Proof
end

