-- ==== Sys2Proof/Config.lean ====
section
/-! DEFINITION. What is fixed when the block is built: the constants of the source and the open parameters of
`00_scope.md` R6. -/

namespace Sys2Proof

/-- `SYNC0`, the sync byte the framer splits on (R6). -/
def sync0 : Byte := 0xAB

/-- `SYNC1`, the second byte of the sync marker (R6). -/
def sync1 : Byte := 0xCD

/-- The least finite `BUF_CAP` (R6, `40_framer.md` R96). -/
def minBufCap : Nat := 260

/-- The open parameters of R6, fixed when the block is built and written by no operation (`10_state.md` R26).
They stand in `State` so that a statement over all states holds for every value of them (log entries 4, 5, 6). -/
structure Params where
  /-- `BUF_CAP`: `none` is the reference value, unbounded. -/
  bufCap : Option Nat
  /-- `SEQ_FIRST`: the sequence number of the first Record after reset. -/
  seqFirst : Nat
  /-- `SEQ_W`: the width of the sequence counter in bits; `none` is the reference value, unbounded. -/
  seqW : Option Nat
  deriving DecidableEq, Repr

/-- "a finite value must be at least 260" (R6). -/
def Params.wf (p : Params) : Bool :=
  match p.bufCap with
  | none => true
  | some c => decide (minBufCap ≤ c)

/-- `SEQ_FIRST` of the block that `State.reset` describes: a free value (DESIGN CHOICE, log entry 5: the spec leaves
it OPEN, decision D5; no body, so nothing can be proved of it). Safe. -/
opaque Config.seqFirst : Nat

/-- The parameters of the block that `State.reset` describes: the spec's reference values where it gives one
(DESIGN CHOICE, log entries 4 and 6), a free value for `SEQ_FIRST`. -/
def Params.reference : Params := ⟨none, Config.seqFirst, none⟩

/-- `T`, the type of a timestamp: an uninterpreted token that no operation reads (R6, `44_rx_pipeline.md` R172).
DESIGN CHOICE, log entry 7. Safe. -/
structure Timestamp where
  token : Nat
  deriving DecidableEq, Repr

end Sys2Proof
end

