-- ==== Sys2Proof/Syntax.lean ====
section
/-! DEFINITION. The block's inputs and its operations: one constructor of `Instr` per row of
`spec/opcode_table.json` (`30_encoding.md` R70, R71). -/

namespace Sys2Proof

/-- The two commands (`00_scope.md` R12, `30_encoding.md` R69). -/
inductive Command where
  | connect
  | disconnect
  deriving DecidableEq, Repr

/-- The input events of `10_state.md` R24. `now` is sampled: each `rx(b)` carries the value the clock shows in its
step (`70_reset_and_hazards.md` R235). -/
inductive InputEvent where
  /-- `reset` -/
  | reset
  /-- `rx(b)`, with the value `now` of the clock input in that step -/
  | rx (b : Byte) (now : Timestamp)
  /-- `cmd(c)` -/
  | cmd (c : Command)
  deriving DecidableEq, Repr

/-- The operations of the block, in the order of `spec/opcode_table.json`. -/
inductive Instr where
  /-- `RESET` (R220) -/
  | reset
  /-- `FEED.SYNC` (R90): the byte fed is 0xAB, every bit of it fixed by the row's mask -/
  | feedSync
  /-- `FEED.DATA` (R90): the byte fed is `b`, not 0xAB -/
  | feedData (b : Byte)
  /-- `VALIDATE` (R105): any byte string -/
  | validate (f : Frame)
  /-- `DECODE.EXTREMA` (R128): a frame with the capture flag set -/
  | decodeExtrema (f : Frame)
  /-- `DECODE.DUAL` (R127): a frame with the capture flag clear -/
  | decodeDual (f : Frame)
  /-- `ENCODE.CONNECT` (R156) -/
  | encodeConnect
  /-- `ENCODE.DISCONNECT` (R157) -/
  | encodeDisconnect
  deriving DecidableEq, Repr

/-- The formats of the table's rows (R71). The rows of format `FRAME` are two stages: a CandidateFrame (`frame`, the
row `VALIDATE`) and a frame that passed VALIDATE (`validated`, the two `DECODE` rows). -/
inductive Format where
  /-- `EVENT` -/
  | event
  /-- `RXBYTE` -/
  | rxByte
  /-- `FRAME`, first stage -/
  | frame
  /-- `FRAME`, second stage -/
  | validated
  /-- `CMD` -/
  | cmd
  deriving DecidableEq, Repr

end Sys2Proof
end

