-- ==== Sys2Proof/WellFormed.lean ====
section
/-! DEFINITION. Which operands each operation takes (`30_encoding.md` R70, R71): the row of the table must match. -/

namespace Sys2Proof

/-- The part of a `DECODE` row's match that both rows share: at least 6 bytes, the sync marker at offsets 0 and 1 (R71). -/
def decodeOperand (f : Frame) : Bool :=
  decide (6 ≤ f.length) && byteAt f 0 == sync0 && byteAt f 1 == sync1

/-- The max/min-capture flag, bit 5 of `f[5]` (R63). -/
def captureBit (f : Frame) : Bool := (byteAt f 5).getLsbD 5

/-- The operand is one that the instruction's row selects. VALIDATE takes every byte string (R71, R105). -/
def Instr.wellFormed : Instr → Bool
  | .reset => true
  | .feedSync => true
  | .feedData b => b != sync0
  | .validate _ => true
  | .decodeExtrema f => decodeOperand f && captureBit f
  | .decodeDual f => decodeOperand f && !captureBit f
  | .encodeConnect => true
  | .encodeDisconnect => true

end Sys2Proof
end

