-- ==== Sys2Proof/Decode.lean ====
section
/-! DEFINITION. The operation map (`30_encoding.md` R70, R71): the decoder of the table's words, total and rejecting by
name, and after it the encoder; the dispatch of an input event; the wire form of the `cmd` port. -/

namespace Sys2Proof

/-- Why a word selects no operation. -/
inductive DecodeReject where
  /-- The `reset` event has no bit pattern (R71). -/
  | eventHasNoBits
  /-- An `rx` event carries exactly one byte (`10_state.md` R24). -/
  | notOneByte
  /-- A validated frame of fewer than 6 bytes matches neither `DECODE` row (R71). -/
  | noLayoutByte
  /-- The frame does not start with the sync marker of the `DECODE` rows' match. -/
  | noSyncMarker
  /-- The `cmd` port has two values, each written as its whole OutboundFrame (R71, R72). -/
  | noSuchCommand
  deriving DecidableEq, Repr

/-- A row's match and mask, offset 0 first (R71). -/
structure Row where
  bits : List Byte
  mask : List Byte
  deriving DecidableEq, Repr

/-- `(x[i] & mask[i]) = match[i]` for every byte of the strings, `x` having at least as many bytes (R71). -/
def matchesBytes : List Byte → List Byte → Frame → Bool
  | [], _, _ => true
  | m :: ms, k :: ks, x :: xs => (x &&& k) == m && matchesBytes ms ks xs
  | _ :: _, _, _ => false

/-- The row matches the input (R71). -/
def Row.selects (r : Row) (x : Frame) : Bool := matchesBytes r.bits r.mask x

/-- `FEED.SYNC`: match AB, mask FF. -/
def rowFeedSync : Row := ⟨[0xAB], [0xFF]⟩
/-- `FEED.DATA`: match 00, mask 00. -/
def rowFeedData : Row := ⟨[0x00], [0x00]⟩
/-- `VALIDATE`: match ABCD, mask FFFF; "only step 1 of VALIDATE", not a condition on the operand (R71). -/
def rowValidate : Row := ⟨[0xAB, 0xCD], [0xFF, 0xFF]⟩
/-- `DECODE.EXTREMA`: match ABCD00000020, mask FFFF00000020. -/
def rowDecodeExtrema : Row := ⟨[0xAB, 0xCD, 0, 0, 0, 0x20], [0xFF, 0xFF, 0, 0, 0, 0x20]⟩
/-- `DECODE.DUAL`: match ABCD00000000, mask FFFF00000020. -/
def rowDecodeDual : Row := ⟨[0xAB, 0xCD, 0, 0, 0, 0], [0xFF, 0xFF, 0, 0, 0, 0x20]⟩
/-- `ENCODE.CONNECT`: the complete word (R71). -/
def wordConnect : Frame := [0x08, 0xAB, 0xCD, 0x04, 0x00, 0x05, 0x01, 0x0A, 0x00]
/-- `ENCODE.DISCONNECT`: the complete word (R71). -/
def wordDisconnect : Frame := [0x08, 0xAB, 0xCD, 0x04, 0x00, 0x05, 0x00, 0x09, 0x00]

/-- `RXBYTE`: the rows in the order listed, first match wins (R71). -/
def decodeRxByte (x : Frame) : Except DecodeReject Instr :=
  match x with
  | [b] => if rowFeedSync.selects [b] then .ok .feedSync else if rowFeedData.selects [b] then .ok (.feedData b) else .error .notOneByte
  | _ => .error .notOneByte

/-- `FRAME`, second stage: the two `DECODE` rows in the order listed (R71). -/
def decodeValidated (f : Frame) : Except DecodeReject Instr :=
  if rowDecodeExtrema.selects f then .ok (.decodeExtrema f)
  else if rowDecodeDual.selects f then .ok (.decodeDual f)
  else if f.length < 6 then .error .noLayoutByte
  else .error .noSyncMarker

/-- `CMD`: the two complete words (R71). -/
def decodeCmd (x : Frame) : Except DecodeReject Instr :=
  if x = wordConnect then .ok .encodeConnect
  else if x = wordDisconnect then .ok .encodeDisconnect
  else .error .noSuchCommand

/-- The decoder: which operation an input of a format selects (R70, R71). -/
def decode (fmt : Format) (x : Frame) : Except DecodeReject Instr :=
  match fmt with
  | .event => if x = [] then .ok .reset else .error .eventHasNoBits
  | .rxByte => decodeRxByte x
  | .frame => .ok (.validate x)
  | .validated => decodeValidated x
  | .cmd => decodeCmd x

/-- The encoder: the format and the bytes of an instruction (R70, R71). -/
def encode : Instr → Format × Frame
  | .reset => (.event, [])
  | .feedSync => (.rxByte, [sync0])
  | .feedData b => (.rxByte, [b])
  | .validate f => (.frame, f)
  | .decodeExtrema f => (.validated, f)
  | .decodeDual f => (.validated, f)
  | .encodeConnect => (.cmd, wordConnect)
  | .encodeDisconnect => (.cmd, wordDisconnect)

/-- The word a command is written as in the table (R71). -/
def commandWord : Command → Frame
  | .connect => wordConnect
  | .disconnect => wordDisconnect

/-- The format and the bytes an input event presents to the decoder (R70). -/
def eventWord : InputEvent → Format × Frame
  | .reset => (.event, [])
  | .rx b _ => (.rxByte, [b])
  | .cmd c => (.cmd, commandWord c)

/-- The instruction of a received byte: `FEED.SYNC` for 0xAB, `FEED.DATA` for every other (R70). -/
def feedInstr (b : Byte) : Instr := if b = sync0 then .feedSync else .feedData b

/-- The instruction of a command (R70). -/
def encodeInstr : Command → Instr
  | .connect => .encodeConnect
  | .disconnect => .encodeDisconnect

/-- Which operation an input event selects (R70, R178(f)). -/
def select : InputEvent → Instr
  | .reset => .reset
  | .rx b _ => feedInstr b
  | .cmd c => encodeInstr c

/-- The `cmd` event on a wire: 1 for Connect, 0 for Disconnect (`43_command_encoder.md` R163). -/
def commandBit : Command → BitVec 1
  | .connect => 1
  | .disconnect => 0

/-- The command a wire bit stands for (R163). -/
def commandOfBit (w : BitVec 1) : Command := if w = 1 then .connect else .disconnect

/-- The `n` bytes of a number, the least significant first. -/
def bytesOfNat : Nat → Nat → Frame
  | 0, _ => []
  | n + 1, w => BitVec.ofNat 8 w :: bytesOfNat n (w / 256)

/-- The format of a table word by its number of bytes: RESET has none, an `rx` byte one, the `DECODE` rows six, a `cmd`
word nine, and every other length is a CandidateFrame (DESIGN CHOICE, log entry 18: the table's words carry no format). -/
def formatOfLength : Nat → Format
  | 0 => .event
  | 1 => .rxByte
  | 6 => .validated
  | 9 => .cmd
  | _ => .frame

/-- The instruction the decoder reads from a word of the opcode table, bit 0 being the least significant bit of the byte
at offset 0. -/
def decodeTableWord (nbits w : Nat) : Option Instr :=
  let n := (nbits + 7) / 8
  (decode (formatOfLength n) (bytesOfNat n w)).toOption

end Sys2Proof
end

