-- ==== Sys2Proof/Machine/State.lean ====
section
/-! DEFINITION. The state of the block, its output types, the reasons a step can stop, and the state after reset
(`10_state.md` R20 to R33). -/

namespace Sys2Proof.Machine

/-- A code point of unit text (`42_decoder.md` R130). -/
abbrev CodePoint := Nat

/-- `Unit`: a string of exactly 4 code points (R32, R130). -/
structure UnitText where
  c0 : CodePoint
  c1 : CodePoint
  c2 : CodePoint
  c3 : CodePoint
  deriving DecidableEq, Repr

/-- `Value`: the binary32 pattern and its value in units of 0.0001, none for a NaN or an infinity (R32, R131). -/
structure Value where
  raw : BitVec 32
  dec4 : Option Int
  deriving DecidableEq, Repr

/-- `Sample` (R32). -/
structure Sample where
  value : Value
  durationSeconds : BitVec 32
  deriving DecidableEq, Repr

/-- `Reading`: exactly two cases (R32). -/
inductive Reading where
  | dual (value1 : Value) (unit1 : UnitText) (value2 : Value) (unit2 : UnitText)
  | extrema (value1 : Value) (unit1 : UnitText) (max avg min : Sample)
  deriving DecidableEq, Repr

/-- `StatusFlags` (R32): fields of an output, not state. `properties` is the raw 7-byte blob. -/
structure StatusFlags where
  range : Byte
  hold : Bool
  manual : Bool
  overload : Bool
  error : Bool
  properties : List Byte
  deriving DecidableEq, Repr

/-- `Record` (R32). -/
structure Record where
  sequence : Nat
  timestamp : Timestamp
  reading : Reading
  flags : StatusFlags
  deriving DecidableEq, Repr

/-- `DecodeError`: exactly four cases (R33). -/
inductive DecodeError where
  | unrecognizedHeader
  | lengthMismatch (declared : Option Byte) (actual : Int)
  | checksumMismatch
  | malformed
  deriving DecidableEq, Repr

/-- The output events (R24). -/
inductive OutputEvent where
  /-- `cand(f)` -/
  | cand (f : Frame)
  /-- `rec(r)` -/
  | record (r : Record)
  /-- `err(e, f)` -/
  | err (e : DecodeError) (f : Frame)
  /-- `tx(s)` -/
  | tx (s : Frame)
  deriving DecidableEq, Repr

/-- What one operation of a step hands to the next (R28(e): values that exist only inside one step). The model's own;
DESIGN CHOICE, log entry 2. -/
inductive Stage where
  /-- nothing is handed on: every step boundary -/
  | idle
  /-- FEED's result `some(f)`, for VALIDATE -/
  | candidate (f : Frame)
  /-- VALIDATE's `Ok(f)`, for DECODE -/
  | validated (f : Frame)
  /-- DECODE's `Ok(reading, flags)`, for the report -/
  | decoded (f : Frame) (r : Reading) (fl : StatusFlags)
  /-- `Err` of VALIDATE or DECODE, for the report -/
  | failed (f : Frame) (e : DecodeError)
  deriving DecidableEq, Repr

/-- The accumulation buffer's memory: offsets 0 to `len - 1` hold data (R22, `20_memory.md` R40, R41). The byte string is
its own canonical form; DESIGN CHOICE, log entry 19. -/
abbrev Memory := List Byte

/-- The state: the spec's `buf`, `seq`, `ovf`; the open parameters; and the model's own fields, which make a step a
function of the state alone (log entries 1, 2, 8). -/
structure State where
  /-- `buf`, the accumulation buffer (R22). -/
  buf : Memory
  /-- `seq`, the Records produced since reset, modulo `2^SEQ_W` (R23, R171). -/
  seq : Nat
  /-- `ovf`, the sticky overflow flag (R25). -/
  ovf : Bool
  /-- the open parameters, written by no operation (R6, R26) -/
  params : Params
  /-- model's own: the hand-off inside one step -/
  stage : Stage
  /-- model's own: the value at the clock input `now` in the current step (R24, R172) -/
  now : Timestamp
  /-- model's own: the host's input events not yet handled, oldest first -/
  inputs : List InputEvent
  /-- model's own: the output events emitted so far, oldest first -/
  outputs : List OutputEvent
  deriving DecidableEq, Repr

/-- What stops the block. -/
inductive Fault where
  /-- Raised by a step on an `rx` or `cmd` event while `ovf` is 1: the block is faulted after a finite buffer overflowed,
  and stays so until RESET (`40_framer.md` R96, R200). The run ends with it, the events waiting behind it unhandled (log entry
  9). Safe: the spec defines nothing of such a step. -/
  | bufferOverflow
  deriving DecidableEq, Repr

/-- Why an instruction has no meaning. -/
inductive Refusal where
  /-- An instruction of the table without a meaning. Raised by no arm: every row has its meaning. Safe. -/
  | notModelled (mnemonic : String)
  deriving DecidableEq, Repr

/-- The state after a `reset` event (R31), of a block with the reference parameters, no input event waiting and no output
event emitted. `inputs`, `outputs`, `stage`, `now`, `params`: DESIGN CHOICE, log entries 1, 2, 4, 5, 6, 8. -/
def State.reset : State where
  buf := []
  seq := 0
  ovf := false
  params := Params.reference
  stage := .idle
  now := ⟨0⟩
  inputs := []
  outputs := []

end Sys2Proof.Machine
end

