-- ==== Sys2Proof/Machine/Operands.lean ====
section
/-! DEFINITION. Every operand form: the frame read, the assembly of each field type, unit text and measurement values
(`20_memory.md` R44, R45, `30_encoding.md` R67, `42_decoder.md` R130 to R132, R137, R141), and the checksum function
(`41_validator.md` R113). `none` stands for `raise Malformed` (`00_scope.md` R10). -/

namespace Sys2Proof.Machine

/-- `FrameRead(f, off, n)` (R44): the bound is the frame's length, trailer included. -/
def frameRead (f : Frame) (off n : Nat) : Option Frame :=
  if off + n ≤ f.length then some ((f.drop off).take n) else none

/-- The byte read `FrameRead(f, off, 1)[0]`. -/
def readByte (f : Frame) (off : Nat) : Option Byte := (frameRead f off 1).map fun b => byteAt b 0

/-- A little-endian byte string as a number (R45). -/
def leNat : Frame → Nat
  | [] => 0
  | b :: bs => b.toNat + 256 * leNat bs

/-- `u16le` (R10). -/
def u16le (b : Frame) : BitVec 16 := BitVec.ofNat 16 (leNat b)

/-- `u32le` (R10, R67): unsigned, no scaling. -/
def u32le (b : Frame) : BitVec 32 := BitVec.ofNat 32 (leNat b)

/-- `le16(v)`, the low byte first (R10). -/
def le16 (v : Nat) : Frame := [BitVec.ofNat 8 (v % 256), BitVec.ofNat 8 (v / 256)]

/-- `sum(s)`, no reduction (R10). -/
def sumBytes : Frame → Nat
  | [] => 0
  | b :: bs => b.toNat + sumBytes bs

/-- `CHK(s) = le16(sum(s) mod 65536)` (R62, R113). -/
def checksum (s : Frame) : Frame := le16 (sumBytes s % 65536)

/-- `(v & m) != 0` (R9, R67). -/
def maskSet (v m : Byte) : Bool := (v &&& m) != 0

/-- `OMEGA`, U+03A9 (R6, R130). -/
def omegaCode : CodePoint := 0x03A9

/-- One byte of unit text: `~` becomes OMEGA, every other ASCII byte its own code point (R130). -/
def unitChar (b : Byte) : CodePoint := if b = 0x7E then omegaCode else b.toNat

/-- The byte is ASCII: below 0x80 (R130). -/
def isAscii (b : Byte) : Bool := decide (b.toNat < 0x80)

/-- `UNIT(b)` (R130): no trimming; a byte of 0x80 or more raises. -/
def unitText (b : Frame) : Option UnitText :=
  match b with
  | [b0, b1, b2, b3] =>
    if isAscii b0 && isAscii b1 && isAscii b2 && isAscii b3 then some ⟨unitChar b0, unitChar b1, unitChar b2, unitChar b3⟩ else none
  | _ => none

/-- `raw[31]`, the sign (R137). -/
def signBit (raw : BitVec 32) : Bool := raw.getLsbD 31

/-- `raw[30:23]`, the exponent field (R137). -/
def exponentField (raw : BitVec 32) : Nat := raw.toNat / 2 ^ 23 % 256

/-- `raw[22:0]`, the fraction field (R137). -/
def fractionField (raw : BitVec 32) : Nat := raw.toNat % 2 ^ 23

/-- The significand: `m` for a zero or a subnormal, else `2^23 + m` (R137). -/
def significand (raw : BitVec 32) : Nat :=
  if exponentField raw = 0 then fractionField raw else 2 ^ 23 + fractionField raw

/-- The magnitude is `significand * 2^(scaleExponent - 150)`; a subnormal has the scale of `e = 1` (R137). -/
def scaleExponent (raw : BitVec 32) : Nat := if exponentField raw = 0 then 1 else exponentField raw

/-- The integer nearest to `num / den`, a tie going to the even one (R141). -/
def roundHalfEven (num den : Nat) : Nat :=
  let q := num / den
  let r := num % den
  if 2 * r < den then q else if den < 2 * r then q + 1 else if q % 2 = 0 then q else q + 1

/-- The magnitude of `DEC4`: 10000 times the exact magnitude, rounded (R141). -/
def dec4Magnitude (raw : BitVec 32) : Nat :=
  let num := 10000 * significand raw
  let p := scaleExponent raw
  if 150 ≤ p then num * 2 ^ (p - 150) else roundHalfEven num (2 ^ (150 - p))

/-- `DEC4(raw)` (R141): none for a NaN or an infinity; no sign of zero. The rounding is the spec's decision D10, log
entry 12. -/
def dec4 (raw : BitVec 32) : Option Int :=
  if exponentField raw = 255 then none
  else some (if signBit raw then -(dec4Magnitude raw : Int) else (dec4Magnitude raw : Int))

/-- `VALUE` of a pattern (R131): no value is ever Malformed. -/
def valueOf (raw : BitVec 32) : Value := ⟨raw, dec4 raw⟩

/-- A `VALUE` field at an offset (R131). -/
def readValue (f : Frame) (off : Nat) : Option Value := (frameRead f off 4).map fun b => valueOf (u32le b)

/-- A `UNIT` field at an offset (R130). -/
def readUnit (f : Frame) (off : Nat) : Option UnitText := (frameRead f off 4).bind unitText

/-- A duration at an offset: `u32le`, taken as it is (R132). -/
def readDuration (f : Frame) (off : Nat) : Option (BitVec 32) := (frameRead f off 4).map u32le

/-- A `Sample`: its value and, 5 bytes on, its duration (R65). -/
def readSample (f : Frame) (off : Nat) : Option Sample :=
  (readValue f off).bind fun v => (readDuration f (off + 5)).map fun d => ⟨v, d⟩

end Sys2Proof.Machine
end

