-- ==== Sys2Proof/Machine/Flags.lean ====
section
/-! DEFINITION. Every flag computation: the status flags of a frame (`42_decoder.md` R129), the layout selection
(R126), the overflow flag (`40_framer.md` R96) and the numbers of the error kinds (`60_exceptions.md` R195). -/

namespace Sys2Proof.Machine

/-- `FLAGS(f)` (R129), the same in both layouts. -/
def statusFlags (f : Frame) : Option StatusFlags :=
  (readByte f 9).bind fun range =>
  (readByte f 5).bind fun b5 =>
  (readByte f 6).bind fun b6 =>
  (readByte f 14).bind fun b14 =>
  (frameRead f 3 7).map fun properties =>
    { range := range
      hold := maskSet b5 0x80
      manual := maskSet b6 0x01
      overload := maskSet b14 0x01
      error := maskSet b6 0x08
      properties := properties }

/-- The layout a frame selects, by bit 0x20 of `f[5]` alone (R126); none when the read of `f[5]` raises. -/
def selectLayout (f : Frame) : Option Instr :=
  (readByte f 5).map fun b => if maskSet b 0x20 then .decodeExtrema f else .decodeDual f

/-- `len(buf) = BUF_CAP`: the append has no room (R96). Never so for the unbounded buffer. -/
def bufferFull (p : Params) (buf : Memory) : Bool :=
  match p.bufCap with
  | none => false
  | some c => decide (buf.length = c)

/-- The numeric code of an error kind (R195); 0 stays free for "no error". -/
def errorCode : DecodeError → Nat
  | .unrecognizedHeader => 1
  | .lengthMismatch _ _ => 2
  | .checksumMismatch => 3
  | .malformed => 4

end Sys2Proof.Machine
end

