-- ==== Sys2Proof/Machine/Ops.lean ====
section
/-! DEFINITION. The named operations over the state: the buffer write, the buffer read and clear, the emission of output
events, what a decode error does ("trap entry", `60_exceptions.md` R203) and what follows it (R204), the report of a
Record, and sequencing of operations inside a step. -/

namespace Sys2Proof.Machine

/-- The byte at an offset of the buffer, none where there is no data (`20_memory.md` R40, R41). -/
def Memory.read (m : Memory) (a : Nat) : Option Byte := m[a]?

/-- The buffer as (address, byte) pairs, addresses rising from 0 (log entry 19). -/
def Memory.cells (m : Memory) : List Host.Cell := m.zipIdx.map fun c => (c.2, c.1)

/-- The canonical form: no more bytes than the capacity (`10_state.md` R22). -/
def Memory.wf (p : Params) (m : Memory) : Bool :=
  match p.bufCap with
  | none => true
  | some c => decide (m.length ≤ c)

/-- The buffer write, `buf <- buf ++ [b]` (`20_memory.md` R42), or, when it has no room, the overflow: the byte is not
stored and `ovf <- 1` (`40_framer.md` R96). -/
def appendByte (b : Byte) (s : State) : State :=
  if bufferFull s.params s.buf then { s with ovf := true } else { s with buf := s.buf ++ [b] }

/-- The buffer read and clear (`20_memory.md` R43): the whole content is handed on as a CandidateFrame. -/
def takeCandidate (s : State) : State := { s with stage := .candidate s.buf, buf := [] }

/-- `emit ev` (`00_scope.md` R10). -/
def emit (ev : OutputEvent) (s : State) : State := { s with outputs := s.outputs ++ [ev] }

/-- The counter after one more Record: modulo `2^SEQ_W` where the width is finite (`44_rx_pipeline.md` R171). -/
def nextSeq (p : Params) (n : Nat) : Nat :=
  match p.seqW with
  | none => n + 1
  | some w => (n + 1) % 2 ^ w

/-- The sequence number of the next Record, `SEQ_FIRST + seq` (R170). -/
def sequenceNumber (s : State) : Nat := s.params.seqFirst + s.seq

/-- What a decode error does (R173, R203): one `err` event with the kind and the frame, nothing else; the step's
hand-off ends. -/
def takeError (e : DecodeError) (f : Frame) (s : State) : State := { emit (.err e f) s with stage := .idle }

/-- "Trap return" (R204): there is none to make; the block goes on from the state the report left. -/
def returnFromError (s : State) : State := s

/-- The success arm of RX (R170 to R172): the Record with its number and the clock's value, and the counter advanced. -/
def produceRecord (r : Reading) (fl : StatusFlags) (s : State) : State :=
  { emit (.record ⟨sequenceNumber s, s.now, r, fl⟩) s with seq := nextSeq s.params s.seq, stage := .idle }

/-- One operation after another inside a step. -/
def andThen (o : Host.Outcome State Fault Refusal) (k : State → Host.Outcome State Fault Refusal) :
    Host.Outcome State Fault Refusal :=
  match o with
  | .next s => k s
  | .fault r => .fault r
  | .refused r => .refused r

end Sys2Proof.Machine
end

