-- ==== Sys2Proof/Machine/Commands.lean ====
section
/-! DEFINITION. The Command Encoder, operation ENCODE (`43_command_encoder.md` R155 to R162). -/

namespace Sys2Proof.Machine

/-- `CODE(c)`, the 3-byte command code (`30_encoding.md` R69). -/
def commandCode : Command → Frame
  | .connect => [0x00, 0x05, 0x01]
  | .disconnect => [0x00, 0x05, 0x00]

/-- `[inner_length] ++ code`, what the checksum covers (R155). -/
def innerBody (c : Command) : Frame := BitVec.ofNat 8 ((commandCode c).length + 1) :: commandCode c

/-- `inner_buffer = [0xAB, 0xCD] ++ [inner_length] ++ code` (R155). -/
def innerBuffer (c : Command) : Frame := [sync0, sync1] ++ innerBody c

/-- The OutboundFrame of a command (R155): the count of what follows, the inner buffer, the checksum. `Command` is
two-valued and both codes have 3 bytes, so no length leaves its byte and there is no failure outcome (R158). -/
def outboundFrame (c : Command) : Frame :=
  let chk := checksum (innerBody c)
  BitVec.ofNat 8 ((innerBuffer c).length + chk.length) :: (innerBuffer c ++ chk)

/-- `ENCODE(c)` (R155, R159): no state is read, none is written; the one effect is the `tx` event. -/
def encodeCommand (c : Command) (s : State) : State := emit (.tx (outboundFrame c)) s

/-- `ENCODE.CONNECT` (R156). -/
def execEncodeConnect (s : State) : Host.Outcome State Fault Refusal := .next (encodeCommand .connect s)

/-- `ENCODE.DISCONNECT` (R157). -/
def execEncodeDisconnect (s : State) : Host.Outcome State Fault Refusal := .next (encodeCommand .disconnect s)

end Sys2Proof.Machine
end

