-- ==== Sys2Proof/Machine/Decoder.lean ====
section
/-! DEFINITION. The field decoder, operation DECODE (`42_decoder.md` R125 to R139). -/

namespace Sys2Proof.Machine

/-- `DUAL(f)` (R127, `30_encoding.md` R64). -/
def dualReading (f : Frame) : Option Reading :=
  (readValue f 10).bind fun value1 =>
  (readUnit f 15).bind fun unit1 =>
  (readValue f 23).bind fun value2 =>
  (readUnit f 27).map fun unit2 => .dual value1 unit1 value2 unit2

/-- `EXTREMA(f)` (R128, `30_encoding.md` R65). -/
def extremaReading (f : Frame) : Option Reading :=
  (readValue f 10).bind fun value1 =>
  (readUnit f 42).bind fun unit1 =>
  (readSample f 15).bind fun max =>
  (readSample f 24).bind fun avg =>
  (readSample f 33).map fun min => .extrema value1 unit1 max avg min

/-- The result of DECODE, all or nothing (R125, R135): the flags and the reading, or Malformed. It reads only the frame
and writes no state; the result is the hand-off. -/
def deliver (f : Frame) (flags : Option StatusFlags) (reading : Option Reading) (s : State) : State :=
  match flags, reading with
  | some fl, some r => { s with stage := .decoded f r fl }
  | _, _ => { s with stage := .failed f .malformed }

/-- `DECODE.EXTREMA` (R125, R128). -/
def execDecodeExtrema (f : Frame) (s : State) : Host.Outcome State Fault Refusal :=
  .next (deliver f (statusFlags f) (extremaReading f) s)

/-- `DECODE.DUAL` (R125, R127). -/
def execDecodeDual (f : Frame) (s : State) : Host.Outcome State Fault Refusal :=
  .next (deliver f (statusFlags f) (dualReading f) s)

end Sys2Proof.Machine
end

