-- ==== Sys2Proof/Machine/Framer.lean ====
section
/-! DEFINITION. The Byte Framer, operation FEED (`40_framer.md` R90 to R97). -/

namespace Sys2Proof.Machine

/-- The part of FEED before the append (R90): 0xAB on a non-empty buffer emits its content and clears it. The result
`none` of the other case is the idle hand-off. -/
def splitAtSync (b : Byte) (s : State) : State :=
  if b = sync0 ∧ s.buf ≠ [] then takeCandidate s else { s with stage := .idle }

/-- `FEED(b)` (R90, R96). -/
def feed (b : Byte) (s : State) : State := appendByte b (splitAtSync b s)

/-- `FEED.SYNC` (R90): the arm `b = 0xAB`. -/
def execFeedSync (s : State) : Host.Outcome State Fault Refusal := .next (feed sync0 s)

/-- `FEED.DATA` (R90): the arm `b != 0xAB`. -/
def execFeedData (b : Byte) (s : State) : Host.Outcome State Fault Refusal := .next (feed b s)

end Sys2Proof.Machine
end

