-- ==== Sys2Proof/Machine/Reset.lean ====
section
/-! DEFINITION. The operation RESET (`70_reset_and_hazards.md` R220, R221). -/

namespace Sys2Proof.Machine

/-- `RESET` (R220): every state element to its value of `10_state.md` R31, no output event. The parameters and the
environment's own fields are no state of the block and stay (R221; log entry 25). -/
def execReset (s : State) : Host.Outcome State Fault Refusal :=
  .next { s with buf := [], seq := 0, ovf := false, stage := .idle }

end Sys2Proof.Machine
end

