-- ==== Sys2Proof/Machine/Validator.lean ====
section
/-! DEFINITION. The envelope validator, operation VALIDATE (`41_validator.md` R105 to R114). -/

namespace Sys2Proof.Machine

/-- Step 1, the header check (R106). -/
def headerOk (f : Frame) : Bool := decide (2 ≤ f.length) && byteAt f 0 == sync0 && byteAt f 1 == sync1

/-- `n - 4` as an integer (R107, R108). -/
def actualLength (f : Frame) : Int := (f.length : Int) - 4

/-- The length byte, none when the frame has none (R108). -/
def declaredLength (f : Frame) : Option Byte := if 3 ≤ f.length then some (byteAt f 2) else none

/-- Step 2, the length check, on integers (R107, R108). -/
def lengthOk (f : Frame) : Bool :=
  match declaredLength f with
  | none => false
  | some d => decide ((d.toNat : Int) = actualLength f)

/-- `f[2 .. n-2]`, the checksummed range (R109). -/
def summedRange (f : Frame) : Frame := (f.take (f.length - 2)).drop 2

/-- `f[n-2 .. n]`, the checksum trailer (R109). -/
def trailer (f : Frame) : Frame := f.drop (f.length - 2)

/-- Step 3, the checksum check, byte for byte (R109). -/
def checksumOk (f : Frame) : Bool := trailer f == checksum (summedRange f)

/-- `VALIDATE(f)` (R105): three checks, the first failure ends it. -/
def validate (f : Frame) : Except DecodeError Unit :=
  if !headerOk f then .error .unrecognizedHeader
  else if !lengthOk f then .error (.lengthMismatch (declaredLength f) (actualLength f))
  else if !checksumOk f then .error .checksumMismatch
  else .ok ()

/-- `VALIDATE` (R105): reads only `f`, writes no state; its result is the hand-off. -/
def execValidate (f : Frame) (s : State) : Host.Outcome State Fault Refusal :=
  match validate f with
  | .ok _ => .next { s with stage := .validated f }
  | .error e => .next { s with stage := .failed f e }

end Sys2Proof.Machine
end

