-- ==== Sys2Proof/Machine/Dispatch.lean ====
section
/-! DEFINITION. One arm per operation of `spec/opcode_table.json`. -/

namespace Sys2Proof.Machine

def exec (i : Instr) (s : State) : Host.Outcome State Fault Refusal :=
  match i with
  | .reset => Sys2Proof.Machine.execReset s
  | .feedSync => Sys2Proof.Machine.execFeedSync s
  | .feedData b => Sys2Proof.Machine.execFeedData b s
  | .validate f => Sys2Proof.Machine.execValidate f s
  | .decodeExtrema f => Sys2Proof.Machine.execDecodeExtrema f s
  | .decodeDual f => Sys2Proof.Machine.execDecodeDual f s
  | .encodeConnect => Sys2Proof.Machine.execEncodeConnect s
  | .encodeDisconnect => Sys2Proof.Machine.execEncodeDisconnect s

end Sys2Proof.Machine
end

