-- ==== Sys2Proof/Machine/Pipeline.lean ====
section
/-! DEFINITION. The receive pipeline and the handling of one event (`44_rx_pipeline.md` R170 to R178): how the operations
of `exec` compose into one atomic step. -/

namespace Sys2Proof.Machine

/-- RX after FEED (R170): a candidate is output as `cand` (R174) and validated. -/
def validateStage (s : State) : Host.Outcome State Fault Refusal :=
  match s.stage with
  | .candidate f => exec (.validate f) (emit (.cand f) s)
  | _ => .next s

/-- `DECODE(f)` (R125, R126): the layout the frame selects, or Malformed when the read of `f[5]` raises. -/
def runDecode (f : Frame) (s : State) : Host.Outcome State Fault Refusal :=
  match selectLayout f with
  | some i => exec i s
  | none => .next { s with stage := .failed f .malformed }

/-- CODEC (R175): a frame that passed VALIDATE is decoded. -/
def decodeStage (s : State) : Host.Outcome State Fault Refusal :=
  match s.stage with
  | .validated f => runDecode f s
  | _ => .next s

/-- The end of RX (R170): `rec` and the counter, or `err`. -/
def reportStage (s : State) : State :=
  match s.stage with
  | .decoded _ r fl => produceRecord r fl s
  | .failed f e => returnFromError (takeError e f s)
  | _ => s

/-- The rest of the step, until nothing is handed on. -/
def settle (s : State) : Host.Outcome State Fault Refusal :=
  andThen (andThen (validateStage s) decodeStage) fun t => .next (reportStage t)

/-- The clock input is sampled with each received byte (R172, R235). -/
def sampleClock (ev : InputEvent) (s : State) : State :=
  match ev with
  | .rx _ t => { s with now := t }
  | _ => s

/-- One input event (R5, R70, R178(f)): its operation, then the rest of the step. In the faulted state every step but
RESET is a fault (`40_framer.md` R96; log entry 9). What becomes of the events behind such a step the spec leaves open: the
fault carries no state, so the run ends there, and a `reset` waiting behind the event is never handled (DESIGN CHOICE, log
entry 9; safe). -/
def handleEvent (ev : InputEvent) (s : State) : Host.Outcome State Fault Refusal :=
  if s.ovf = true ∧ ev ≠ .reset then .fault .bufferOverflow
  else andThen (exec (select ev) (sampleClock ev s)) settle

/-- The next input event, or idleness where there is none (`60_exceptions.md` R212; log entry 10). -/
def nextEvent (s : State) : Host.Outcome State Fault Refusal :=
  match s.inputs with
  | [] => .next s
  | ev :: rest => handleEvent ev { s with inputs := rest }

/-- One step. A hand-off left open, which no step leaves, is finished before the next event is looked at (R51(b); log
entry 24). -/
def runStep (s : State) : Host.Outcome State Fault Refusal :=
  match s.stage with
  | .idle => nextEvent s
  | _ => settle s

/-- Put an instruction where the next step takes it from: an input event in front of the waiting ones, or, for the two
operations that no event selects, the hand-off (log entry 3). -/
def present (i : Instr) (s : State) : State :=
  match i with
  | .reset => { s with stage := .idle, inputs := .reset :: s.inputs }
  | .feedSync => { s with stage := .idle, inputs := .rx sync0 s.now :: s.inputs }
  | .feedData b => { s with stage := .idle, inputs := .rx b s.now :: s.inputs }
  | .validate f => { s with stage := .candidate f }
  | .decodeExtrema f => { s with stage := .validated f }
  | .decodeDual f => { s with stage := .validated f }
  | .encodeConnect => { s with stage := .idle, inputs := .cmd .connect :: s.inputs }
  | .encodeDisconnect => { s with stage := .idle, inputs := .cmd .disconnect :: s.inputs }

end Sys2Proof.Machine
end

