-- ==== Sys2Proof/Machine/Step.lean ====
section
/-! DEFINITION. One step of the block: one event, handled whole (`00_scope.md` R5), and the placing of a table word where
the next step takes it from. -/

namespace Sys2Proof.Machine

def step (s : State) : Host.Outcome State Fault Refusal := runStep s

/-- `s` with the instruction of a table word as the next one step runs; a word that selects no operation cannot be put on
any port and places nothing (log entry 3). -/
def State.withFetchWord (s : State) (nbits w : Nat) : State :=
  match decodeTableWord nbits w with
  | some i => present i s
  | none => s

end Sys2Proof.Machine
end

