-- ==== Sys2Proof/Safety.lean ====
section
/-! DEFINITION. The terms the statements use: the invariant of a safe run, what the environment fed and what it observed,
and the field maps of `30_encoding.md` written a second time, from the bytes, beside the model's own reads. -/

namespace Sys2Proof.Safety

open Sys2Proof.Machine

/-! ### The invariant -/

/-- What holds at every step boundary (`10_state.md` R22, R25, R30(b), `00_scope.md` R6, `44_rx_pipeline.md` R171). -/
structure BoundaryInv (s : State) : Prop where
  /-- a finite capacity is at least 260 (R6) -/
  params : s.params.wf = true
  /-- nothing is handed on between steps (log entry 2) -/
  idle : s.stage = .idle
  /-- `len(buf) <= BUF_CAP` (R22) -/
  bounded : Memory.wf s.params s.buf = true
  /-- for every offset `i >= 1`, `buf[i] != 0xAB` (R30(b)) -/
  split : ∀ b ∈ s.buf.tail, b ≠ sync0
  /-- the flag is set only with a finite, full buffer (R25, R96) -/
  overflow : s.ovf = true → s.params.bufCap = some s.buf.length
  /-- the counter fits its width (R23) -/
  counter : ∀ w, s.params.seqW = some w → s.seq < 2 ^ w

/-- A step stops only for the overflow fault, and never for want of a meaning (`70_reset_and_hazards.md` R232, R235). -/
def SafeStep (s : State) : Prop :=
  (∃ t, step s = .next t) ∨ (s.ovf = true ∧ step s = .fault .bufferOverflow)

/-! ### What was fed and what was observed -/

/-- The bytes of the `rx` events, in order. -/
def fedBytes (evs : List InputEvent) : Frame :=
  evs.filterMap fun ev => match ev with
    | .rx b _ => some b
    | _ => none

/-- The CandidateFrames of the `cand` events, in order. -/
def candidates (evs : List OutputEvent) : List Frame :=
  evs.filterMap fun ev => match ev with
    | .cand f => some f
    | _ => none

/-- The Records of the `rec` events, in order. -/
def records (evs : List OutputEvent) : List Record :=
  evs.filterMap fun ev => match ev with
    | .record r => some r
    | _ => none

/-- The output events of the receive side: all but `tx`. -/
def receiveSide (evs : List OutputEvent) : List OutputEvent :=
  evs.filter fun ev => match ev with
    | .tx _ => false
    | _ => true

/-- The output events between two states of a run. -/
def newOutputs (s t : State) : List OutputEvent := t.outputs.drop s.outputs.length

/-- An output event without the clock: a Record's timestamp replaced by one fixed token. -/
def eraseTimestamp : OutputEvent → OutputEvent
  | .cand f => .cand f
  | .record r => .record { r with timestamp := ⟨0⟩ }
  | .err e f => .err e f
  | .tx w => .tx w

/-- A number of steps of the machine. -/
def run (n : Nat) (s : State) : Host.Outcome State Fault Refusal := Host.Core.run core n s

/-- The host delivers one chunk of the transport: each byte, in order, is one `rx` event (`10_state.md` R24), and the
block handles them all. -/
def deliverChunk (o : Host.Outcome State Fault Refusal) (chunk : List (Byte × Timestamp)) : Host.Outcome State Fault Refusal :=
  andThen o fun s => run chunk.length { s with inputs := chunk.map fun c => .rx c.1 c.2 }

/-- The host delivers chunk after chunk (`40_framer.md` R95). -/
def deliverChunks (s : State) (chunks : List (List (Byte × Timestamp))) : Host.Outcome State Fault Refusal :=
  chunks.foldl deliverChunk (.next s)

/-! ### The codec as a function of the frame -/

/-- `DECODE(f)` as a function (`42_decoder.md` R125). -/
def decodeFields (f : Frame) : Except DecodeError (Reading × StatusFlags) :=
  let reading := match selectLayout f with
    | none => none
    | some (.decodeExtrema g) => extremaReading g
    | some _ => dualReading f
  match reading, statusFlags f with
  | some r, some fl => .ok (r, fl)
  | _, _ => .error .malformed

/-- `CODEC(f)` (`44_rx_pipeline.md` R175): Err of the first check that fails, else the result of DECODE. -/
def codec (f : Frame) : Except DecodeError (Reading × StatusFlags) :=
  match validate f with
  | .error e => .error e
  | .ok _ => decodeFields f

/-! ### The field maps of `30_encoding.md`, byte by byte -/

/-- The 4 bytes at an offset as an unsigned little-endian word (R67). -/
def wordAt (f : Frame) (off : Nat) : Nat :=
  (byteAt f off).toNat + 256 * (byteAt f (off + 1)).toNat + 65536 * (byteAt f (off + 2)).toNat
    + 16777216 * (byteAt f (off + 3)).toNat

/-- The float field at an offset: its pattern and DEC4 of it (R67, `42_decoder.md` R131). -/
def floatAt (f : Frame) (off : Nat) : Value := ⟨BitVec.ofNat 32 (wordAt f off), dec4 (BitVec.ofNat 32 (wordAt f off))⟩

/-- The u32 field at an offset (R67). -/
def u32At (f : Frame) (off : Nat) : BitVec 32 := BitVec.ofNat 32 (wordAt f off)

/-- The 4 bytes at an offset are ASCII (`42_decoder.md` R130). -/
def AsciiAt (f : Frame) (off : Nat) : Prop := ∀ i < 4, (byteAt f (off + i)).toNat < 128

/-- The code point of a unit-text byte: U+03A9 for 0x7E, else its own number (`42_decoder.md` R130). -/
def glyphAt (f : Frame) (off : Nat) : CodePoint := if (byteAt f off).toNat = 0x7E then 0x3A9 else (byteAt f off).toNat

/-- The text field at an offset (R67). -/
def textAt (f : Frame) (off : Nat) : UnitText :=
  ⟨glyphAt f off, glyphAt f (off + 1), glyphAt f (off + 2), glyphAt f (off + 3)⟩

/-- The status flags, bit by bit (R63). -/
def flagsAt (f : Frame) : StatusFlags where
  range := byteAt f 9
  hold := (byteAt f 5).getLsbD 7
  manual := (byteAt f 6).getLsbD 0
  overload := (byteAt f 14).getLsbD 0
  error := (byteAt f 6).getLsbD 3
  properties := [byteAt f 3, byteAt f 4, byteAt f 5, byteAt f 6, byteAt f 7, byteAt f 8, byteAt f 9]

/-- The Dual layout (R64). -/
def dualAt (f : Frame) : Reading := .dual (floatAt f 10) (textAt f 15) (floatAt f 23) (textAt f 27)

/-- The Extrema layout (R65). -/
def extremaAt (f : Frame) : Reading :=
  .extrema (floatAt f 10) (textAt f 42) ⟨floatAt f 15, u32At f 20⟩ ⟨floatAt f 24, u32At f 29⟩ ⟨floatAt f 33, u32At f 38⟩

/-- The checksum of bytes 2 to `n - 3` as a number, modulo 65536 (R62). -/
def rangeSum (f : Frame) : Nat := (((f.take (f.length - 2)).drop 2).map BitVec.toNat).sum % 65536

/-- The envelope of R60 with the checksum of R62. -/
structure Envelope (f : Frame) : Prop where
  least : 4 ≤ f.length
  most : f.length ≤ 259
  marker : byteAt f 0 = 0xAB ∧ byteAt f 1 = 0xCD
  length : (byteAt f 2).toNat = f.length - 4
  checksum : (byteAt f (f.length - 2)).toNat = rangeSum f % 256 ∧ (byteAt f (f.length - 1)).toNat = rangeSum f / 256

/-! ### The exact value of a binary32 pattern -/

/-- The value of a finite pattern as a rational number (`42_decoder.md` R137), none for a NaN or an infinity. -/
def binary32 (raw : BitVec 32) : Option ℚ :=
  let e := (raw.extractLsb 30 23).toNat
  let m := (raw.extractLsb 22 0).toNat
  let sign : ℚ := if raw.getLsbD 31 then -1 else 1
  if e = 255 then none
  else if e = 0 then some (sign * (m : ℚ) * (2 : ℚ) ^ (-149 : ℤ))
  else some (sign * ((2 : ℚ) ^ 23 + (m : ℚ)) * (2 : ℚ) ^ ((e : ℤ) - 150))

end Sys2Proof.Safety
end

