-- ==== Sys2Proof/Certificates/Slice0/Obligations.lean ====
section
/-! DEFINITION. The statements for the provers. Where a statement rests on a decision of the spec (`92_eei_decisions.md`)
or a choice of this model, its docstring says so. -/

open Sys2Proof Sys2Proof.Machine Sys2Proof.Safety

/-! ### The operation map -/

/-- `30_encoding.md` R70, R71: no bit of an encoding is dropped. -/
def Obligations.DecodeOfEncodeIsTheInstruction : Prop :=
  ∀ i : Instr, i.wellFormed = true → decode (encode i).1 (encode i).2 = .ok i

/-- `30_encoding.md` R71: each word of a format has one reading, and it is a well-formed instruction. -/
def Obligations.DecodedWordsHaveOneReading : Prop :=
  ∀ fmt x i, decode fmt x = .ok i → i.wellFormed = true ∧ encode i = (fmt, x)

/-- Words of `spec/opcode_table.json`, one per family, read as the rows say. -/
def Obligations.TableWordsDecode : Prop :=
  decodeTableWord 0 0 = some .reset ∧
  decodeTableWord 8 0xAB = some .feedSync ∧
  decodeTableWord 8 0x00 = some (.feedData 0x00) ∧
  decodeTableWord 16 0xCDAB = some (.validate [0xAB, 0xCD]) ∧
  decodeTableWord 48 0x20000000CDAB = some (.decodeExtrema [0xAB, 0xCD, 0, 0, 0, 0x20]) ∧
  decodeTableWord 48 0x00000000CDAB = some (.decodeDual [0xAB, 0xCD, 0, 0, 0, 0]) ∧
  decodeTableWord 72 0x000A01050004CDAB08 = some .encodeConnect ∧
  decodeTableWord 72 0x000900050004CDAB08 = some .encodeDisconnect

/-- `30_encoding.md` R71: exactly when each format's input selects no row, for whatever reason, and that a CandidateFrame
always selects one; then when each reason is given. The format of a bare word and the names of the reasons are the model's
choice (log entry 18). -/
def Obligations.DecoderRejectsExactly : Prop :=
  (∀ f, (∃ e, decode .validated f = .error e) ↔ f.length < 6 ∨ ¬ (byteAt f 0 = 0xAB ∧ byteAt f 1 = 0xCD)) ∧
  (∀ x, (∃ e, decode .rxByte x = .error e) ↔ x.length ≠ 1) ∧
  (∀ f, decode .frame f = .ok (.validate f)) ∧
  (∀ x, (∃ e, decode .event x = .error e) ↔ x ≠ []) ∧
  (∀ x, (∃ e, decode .cmd x = .error e) ↔ x ≠ wordConnect ∧ x ≠ wordDisconnect) ∧
  (∀ f, decode .validated f = .error .noLayoutByte ↔ f.length < 6) ∧
  (∀ f, decode .validated f = .error .noSyncMarker ↔ 6 ≤ f.length ∧ ¬ (byteAt f 0 = 0xAB ∧ byteAt f 1 = 0xCD)) ∧
  (∀ x, decode .rxByte x = .error .notOneByte ↔ x.length ≠ 1) ∧
  (∀ x, decode .event x = .error .eventHasNoBits ↔ x ≠ []) ∧
  (∀ x, decode .cmd x = .error .noSuchCommand ↔ x ≠ wordConnect ∧ x ≠ wordDisconnect)

/-- A step runs the instruction that its event's word decodes to, on the state with the event taken and the clock
sampled, and then the rest of the step (`00_scope.md` R5, `30_encoding.md` R70). -/
def Obligations.StepRunsTheDecodedEvent : Prop :=
  ∀ s ev rest i, s.stage = .idle → s.inputs = ev :: rest → (s.ovf = false ∨ ev = .reset) →
    decode (eventWord ev).1 (eventWord ev).2 = .ok i →
    i.wellFormed = true ∧ i = select ev ∧ step s = andThen (exec i (sampleClock ev { s with inputs := rest })) settle

/-- The two operations that no event selects: VALIDATE on every candidate, a DECODE row on a frame that passed it
(`30_encoding.md` R70, R71). The open hand-off they start from is the model's own and met at no step boundary of a run (log
entries 2, 24). -/
def Obligations.StepRunsTheHandedFrame : Prop :=
  (∀ s f, s.stage = .candidate f →
    step s = andThen (andThen (exec (.validate f) (emit (.cand f) s)) decodeStage) fun t => .next (reportStage t)) ∧
  (∀ s f i, s.stage = .validated f → decode .validated f = .ok i →
    step s = andThen (exec i s) fun t => .next (reportStage t))

/-- An instruction placed by `present` is the one the next step runs (log entry 3): the events are taken off the inputs
again, and the operands are the instruction's own. -/
def Obligations.PresentedInstructionRunsNext : Prop :=
  ∀ s i, i.wellFormed = true → s.stage = .idle → s.ovf = false →
    step (present i s) = (match i with
      | .validate f => andThen (exec i (emit (.cand f) { s with stage := .candidate f })) settle
      | .decodeExtrema f => andThen (exec i { s with stage := .validated f }) settle
      | .decodeDual f => andThen (exec i { s with stage := .validated f }) settle
      | _ => andThen (exec i s) settle)

/-- Between events the block is idle and keeps all its state (`60_exceptions.md`, section 5); that a step without an
event is a next state is the model's reading, log entry 10. -/
def Obligations.IdleWithoutAnEvent : Prop :=
  ∀ s, s.stage = .idle → s.inputs = [] → step s = .next s

/-! ### Reset and the whole machine -/

/-- RESET: every state element to its reset value, nothing emitted, nothing else touched (`70_reset_and_hazards.md` R220,
whose values are the spec's decisions D4, D5, D18). -/
def Obligations.ResetClearsBufSeqOvf : Prop :=
  ∀ s, exec .reset s = .next { s with buf := [], seq := 0, ovf := false, stage := .idle }

/-- The state after reset (`10_state.md` section 4; decisions D3, D4, D5; the reference parameters and the empty event
lists are the model's choice, log entries 1, 2, 4, 6). -/
def Obligations.ResetStateValues : Prop :=
  State.reset.buf = [] ∧ State.reset.seq = 0 ∧ State.reset.ovf = false ∧ State.reset.stage = .idle ∧
  State.reset.params.bufCap = none ∧ State.reset.params.seqW = none ∧
  State.reset.inputs = [] ∧ State.reset.outputs = []

/-- The invariant holds after reset. -/
def Obligations.ResetMeetsTheInvariant : Prop := BoundaryInv State.reset

/-- Every step from a state of the invariant keeps it (`10_state.md` R22, R25, R30(b)). -/
def Obligations.StepKeepsTheInvariant : Prop :=
  ∀ s t, BoundaryInv s → step s = .next t → BoundaryInv t

/-- Every operation completes in every state, and a step stops only for the overflow fault (`70_reset_and_hazards.md`
section 3: no input stops the block; section 2: every input event has exactly one step in every non-faulted state). -/
def Obligations.EveryOperationCompletes : Prop :=
  (∀ i s, ∃ t, exec i s = .next t) ∧ (∀ s, s.ovf = false → ∃ t, step s = .next t) ∧ (∀ s, SafeStep s)

/-- The faulted state (`40_framer.md` section 1, decision D3, log entry 9): every event but RESET is a fault, and RESET
leaves the faulted state. -/
def Obligations.OverflowFaultsUntilReset : Prop :=
  ∀ s ev rest, s.stage = .idle → s.ovf = true → s.inputs = ev :: rest →
    (ev ≠ .reset → step s = .fault .bufferOverflow) ∧
    (ev = .reset → step s = .next { s with inputs := rest, buf := [], seq := 0, ovf := false })

/-- No operation and no step writes a parameter (`10_state.md` section 1, control and status registers). -/
def Obligations.ParametersAreNeverWritten : Prop :=
  (∀ i s t, exec i s = .next t → t.params = s.params) ∧ (∀ s t, step s = .next t → t.params = s.params)

/-- What only RESET does (`70_reset_and_hazards.md` section 1): empty the buffer, set the counter back, leave the faulted
state. The counter is read with the reference width; a finite one wraps. -/
def Obligations.OnlyResetUndoes : Prop :=
  ∀ s t, BoundaryInv s → step s = .next t → s.inputs.head? ≠ some .reset →
    (t.buf = [] → s.buf = []) ∧ (s.params.seqW = none → s.seq ≤ t.seq) ∧ (s.ovf = true → t.ovf = true)

/-- One step's output events (`20_memory.md` section 6, `44_rx_pipeline.md` section 3): none, one `tx`, or one candidate
with exactly one report of that same frame behind it, the Record or the error that the codec gives for it; earlier outputs
are kept. -/
def Obligations.OneReportPerCandidate : Prop :=
  ∀ s t, s.stage = .idle → step s = .next t →
    t.outputs = s.outputs ++ newOutputs s t ∧
    (newOutputs s t = [] ∨ (∃ w, newOutputs s t = [.tx w]) ∨
      (∃ f r, newOutputs s t = [.cand f, .record r] ∧ codec f = .ok (r.reading, r.flags)) ∨
      (∃ f e, newOutputs s t = [.cand f, .err e f] ∧ codec f = .error e))

/-- The counter advances by exactly the Records a step emits, modulo its width (`44_rx_pipeline.md` section 2, decision
D5), and by nothing else but RESET. -/
def Obligations.SequenceCountsRecords : Prop :=
  ∀ s t, BoundaryInv s → step s = .next t → s.inputs.head? ≠ some .reset →
    (s.params.seqW = none → t.seq = s.seq + (records (newOutputs s t)).length) ∧
    (∀ w, s.params.seqW = some w → t.seq = (s.seq + (records (newOutputs s t)).length) % 2 ^ w)

/-! ### The Byte Framer -/

/-- FEED's pseudocode on a buffer with room (`40_framer.md` R90): emission and clear on 0xAB, then the append. -/
def Obligations.FeedFollowsThePseudocode : Prop :=
  ∀ s, s.params.wf = true →
    exec .feedSync s = (if s.buf = [] then .next { s with stage := .idle, buf := [0xAB] }
      else .next { s with stage := .candidate s.buf, buf := [0xAB] }) ∧
    ∀ b, b ≠ 0xAB → s.params.bufCap ≠ some s.buf.length →
      exec (.feedData b) s = .next { s with stage := .idle, buf := s.buf ++ [b] }

/-- FEED on a full finite buffer (`40_framer.md` section 1, overflow; decision D3): the byte is not stored and the flag is
set; 0xAB on a full buffer splits and is stored, with no overflow. -/
def Obligations.FeedOverflowsAFullBuffer : Prop :=
  ∀ s, s.params.wf = true → s.params.bufCap = some s.buf.length →
    (∀ b, b ≠ 0xAB → exec (.feedData b) s = .next { s with stage := .idle, ovf := true }) ∧
    exec .feedSync s = .next { s with stage := .candidate s.buf, buf := [0xAB] }

/-- The frame of FEED.SYNC and FEED.DATA (`10_state.md` R22, R23, R25): the byte goes to offset `len(buf)`, or to 0 after
an emission; every other byte of the buffer reads as before where nothing is emitted; nothing else changes but the
hand-off and, on overflow, the flag. -/
def Obligations.FeedLeavesTheRestAlone : Prop :=
  ∀ s t b, exec (feedInstr b) s = .next t →
    t.seq = s.seq ∧ t.params = s.params ∧ t.now = s.now ∧ t.inputs = s.inputs ∧ t.outputs = s.outputs ∧
    (s.ovf = true → t.ovf = true) ∧
    (s.params.wf = true → (b = 0xAB ∨ s.params.bufCap ≠ some s.buf.length) → t.ovf = s.ovf) ∧
    (¬ (b = 0xAB ∧ s.buf ≠ []) → ∀ a, a ≠ s.buf.length → Memory.read t.buf a = Memory.read s.buf a) ∧
    (b = 0xAB ∧ s.buf ≠ [] → ∀ a, a ≠ 0 → Memory.read t.buf a = none)

/-- Nothing fed is lost or invented (`10_state.md` section 1, invariant (d) of `buf`, from any state): over a run of `rx`
and `cmd` events on the reference buffer, the candidates emitted and then the buffer are the old buffer and then the bytes
fed. -/
def Obligations.EveryByteFedIsAccountedFor : Prop :=
  ∀ s, s.stage = .idle → s.ovf = false → s.params.bufCap = none → (∀ ev ∈ s.inputs, ev ≠ .reset) →
    ∃ t, run s.inputs.length s = .next t ∧ t.inputs = [] ∧ t.outputs = s.outputs ++ newOutputs s t ∧
      (candidates (newOutputs s t)).flatten ++ t.buf = s.buf ++ fedBytes s.inputs

/-- How many candidates a run from an empty buffer emits (`40_framer.md` section 1, guarantees): as many as the bytes
0xAB fed, less one if the first byte fed is 0xAB. -/
def Obligations.EmissionsCountSyncBytes : Prop :=
  ∀ s, s.stage = .idle → s.ovf = false → s.params.bufCap = none → s.buf = [] → (∀ ev ∈ s.inputs, ev ≠ .reset) →
    ∃ t, run s.inputs.length s = .next t ∧
      (candidates (newOutputs s t)).length =
        (fedBytes s.inputs).count 0xAB - (if (fedBytes s.inputs).head? = some 0xAB then 1 else 0)

/-- Chunking cannot be seen (`40_framer.md` R95): any grouping of the received bytes into chunks gives the same outcome as
one chunk, and an empty chunk changes nothing. -/
def Obligations.ChunkingIsInvisible : Prop :=
  ∀ s, s.stage = .idle → s.inputs = [] →
    (∀ chunks, deliverChunks s chunks = deliverChunks s [chunks.flatten]) ∧ deliverChunk (.next s) [] = .next s

/-- What an emitted candidate is (`40_framer.md` section 1, guarantees): the whole buffer, not empty, 0xAB nowhere but at
offset 0; the sync byte alone starts the next accumulation. -/
def Obligations.EmittedCandidatesAreSplitPieces : Prop :=
  ∀ s t f, BoundaryInv s → step s = .next t → f ∈ candidates (newOutputs s t) →
    f = s.buf ∧ f ≠ [] ∧ (∀ b ∈ f.tail, b ≠ 0xAB) ∧ t.buf = [0xAB]

/-- Resynchronisation (`70_reset_and_hazards.md` section 3): whatever was in the buffer and whatever garbage came before,
a frame that starts with 0xAB and holds no other is framed exactly, and reported in the step of the 0xAB behind it with
the clock of that step. -/
def Obligations.FrameAfterGarbageIsFramed : Prop :=
  ∀ (s : State) (garbage f : List (Byte × Timestamp)) (t : Timestamp) (rest : Frame),
    s.stage = .idle → s.ovf = false → s.params.bufCap = none →
    f.map Prod.fst = 0xAB :: rest → (∀ b ∈ rest, b ≠ 0xAB) →
    s.inputs = (garbage ++ f ++ [(0xAB, t)]).map (fun c : Byte × Timestamp => InputEvent.rx c.1 c.2) →
    ∃ u before, run s.inputs.length s = .next u ∧ u.buf = [0xAB] ∧
      ((∃ e, codec (0xAB :: rest) = .error e ∧ u.outputs = before ++ [.cand (0xAB :: rest), .err e (0xAB :: rest)]) ∨
       (∃ r fl q, codec (0xAB :: rest) = .ok (r, fl) ∧
          u.outputs = before ++ [.cand (0xAB :: rest), .record ⟨q, t, r, fl⟩]))

/-! ### The envelope validator -/

/-- Step 1 of VALIDATE (`41_validator.md` R106). -/
def Obligations.HeaderCheckFailsExactly : Prop :=
  ∀ f, validate f = .error .unrecognizedHeader ↔ f.length < 2 ∨ byteAt f 0 ≠ 0xAB ∨ byteAt f 1 ≠ 0xCD

/-- Step 2 of VALIDATE on a frame with the header (`41_validator.md` section 2): when it fails and with what fields, the
fields and the 2- and 3-byte frames being decisions D8 and D9; a frame of more than 259 bytes always fails it. -/
def Obligations.LengthCheckFailsExactly : Prop :=
  ∀ f, 2 ≤ f.length → byteAt f 0 = 0xAB → byteAt f 1 = 0xCD →
    ((∃ d a, validate f = .error (.lengthMismatch d a)) ↔ f.length < 4 ∨ (byteAt f 2).toNat + 4 ≠ f.length) ∧
    (∀ d a, validate f = .error (.lengthMismatch d a) →
      d = (if f.length = 2 then none else some (byteAt f 2)) ∧ a = (f.length : Int) - 4) ∧
    (259 < f.length → ∃ d a, validate f = .error (.lengthMismatch d a))

/-- Step 3 of VALIDATE on a frame that passed the first two (`41_validator.md` R109). -/
def Obligations.ChecksumCheckComparesTheTrailer : Prop :=
  ∀ f, 4 ≤ f.length → byteAt f 0 = 0xAB → byteAt f 1 = 0xCD → (byteAt f 2).toNat = f.length - 4 →
    validate f =
      if (byteAt f (f.length - 2)).toNat = rangeSum f % 256 ∧ (byteAt f (f.length - 1)).toNat = rangeSum f / 256
      then .ok () else .error .checksumMismatch

/-- What VALIDATE's `Ok` establishes, and that it establishes no more (`41_validator.md` R111). -/
def Obligations.ValidatedExactlyTheEnvelope : Prop :=
  ∀ f, validate f = .ok () ↔ Envelope f

/-- VALIDATE completes on every byte string: a frame of the envelope is handed on, every other fails with one of the three
kinds; no state is written but the hand-off (`41_validator.md` section 1). -/
def Obligations.ValidateHandsOnOrFails : Prop :=
  ∀ f s, (Envelope f → exec (.validate f) s = .next { s with stage := .validated f }) ∧
    (¬ Envelope f → ∃ e, e ≠ .malformed ∧ validate f = .error e ∧ exec (.validate f) s = .next { s with stage := .failed f e })

/-- The checksum function (`41_validator.md` R113): the little-endian pair of the 16-bit sum; VALIDATE compares the trailer
with it over bytes 2 to `n - 3`, ENCODE appends it over the inner length and the code; byte strings of equal sum have equal
checksums, so reordering is not detected. -/
def Obligations.ChecksumIsThePlainSum : Prop :=
  (∀ s : Frame, checksum s =
    [BitVec.ofNat 8 ((s.map BitVec.toNat).sum % 256), BitVec.ofNat 8 ((s.map BitVec.toNat).sum / 256)]) ∧
  (∀ s u : Frame, checksum s = checksum u ↔ (s.map BitVec.toNat).sum % 65536 = (u.map BitVec.toNat).sum % 65536) ∧
  (∀ s u : Frame, s.Perm u → checksum s = checksum u) ∧
  (∀ f : Frame, headerOk f = true → lengthOk f = true →
    (validate f = .ok () ↔ f.drop (f.length - 2) = checksum ((f.take (f.length - 2)).drop 2))) ∧
  (∀ c, (outboundFrame c).drop 7 = checksum (0x04 :: commandCode c) ∧
    ((outboundFrame c).drop 1).drop 6 = checksum ((((outboundFrame c).drop 1).take 6).drop 2))

/-- The reduction modulo 65536 does nothing on a frame that passed the length check (`41_validator.md` section 3). -/
def Obligations.ChecksumNeverWrapsAfterLengthCheck : Prop :=
  ∀ f, headerOk f = true → lengthOk f = true →
    sumBytes (summedRange f) ≤ 65025 ∧ sumBytes (summedRange f) % 65536 = sumBytes (summedRange f)

/-- The degenerate frames (`41_validator.md` section 3): exactly one string of 4 bytes and one of 5 validate, none
shorter; both then end as Malformed. -/
def Obligations.DegenerateFramesThatValidate : Prop :=
  (∀ f, f.length < 4 → validate f ≠ .ok ()) ∧
  (∀ f, f.length = 4 → (validate f = .ok () ↔ f = [0xAB, 0xCD, 0x00, 0x00])) ∧
  (∀ f, f.length = 5 → (validate f = .ok () ↔ f = [0xAB, 0xCD, 0x01, 0x01, 0x00])) ∧
  (∀ f, f.length ≤ 5 → validate f = .ok () → codec f = .error .malformed)

/-- Sensitivity (`41_validator.md` section 3): which error one changed byte of a valid frame gives. In a 4-byte frame the
length byte is also a trailer byte; the length check comes first. -/
def Obligations.OneChangedByteIsDetected : Prop :=
  ∀ f i v, validate f = .ok () → i < f.length → v ≠ byteAt f i →
    validate (f.set i v) =
      .error (if i < 2 then .unrecognizedHeader
        else if i = 2 then .lengthMismatch (some v) ((f.length : Int) - 4)
        else .checksumMismatch)

/-- The false split (`70_reset_and_hazards.md` section 3): the head of a valid frame cut at an inner offset fails the
length check with the fields the spec lists, so no Record is produced for it. -/
def Obligations.HeadOfASplitFrameFails : Prop :=
  ∀ f p, validate f = .ok () → 2 ≤ p → p < f.length →
    validate (f.take p) = .error (.lengthMismatch (if p = 2 then none else some (byteAt f 2)) ((p : Int) - 4))

/-! ### The field decoder -/

/-- FrameRead (`20_memory.md` section 1): the bytes at the offsets read when they lie inside the frame, Malformed
otherwise; the bound, trailer included, is decision D13. -/
def Obligations.FrameReadIsBounded : Prop :=
  ∀ f off n, (off + n ≤ f.length → ∃ b, frameRead f off n = some b ∧ b.length = n ∧ ∀ k < n, byteAt b k = byteAt f (off + k)) ∧
    (f.length < off + n → frameRead f off n = none)

/-- DECODE.DUAL (`42_decoder.md` section 2): the fields at their offsets, or Malformed; no state but the hand-off is
written. U+03A9 and the untrimmed text are decision D11 (log entry 13), the bound that takes in the trailer D13 (log entry
15), no other cause of Malformed D17 (log entry 16); that a frame with the capture flag set is read so too is the model's
choice (log entry 21). `dec4` inside a value is pinned by `Dec4IsNearestEven`. -/
def Obligations.DualDecodesOrIsMalformed : Prop :=
  ∀ f s,
    (31 ≤ f.length ∧ AsciiAt f 15 ∧ AsciiAt f 27 →
      exec (.decodeDual f) s = .next { s with stage := .decoded f (dualAt f) (flagsAt f) }) ∧
    (¬ (31 ≤ f.length ∧ AsciiAt f 15 ∧ AsciiAt f 27) →
      exec (.decodeDual f) s = .next { s with stage := .failed f .malformed })

/-- DECODE.EXTREMA (`42_decoder.md` section 2): the fields at their offsets, or Malformed; no state but the hand-off is
written. U+03A9 and the untrimmed text are decision D11 (log entry 13), the bound that takes in the trailer D13 (log entry
15), no other cause of Malformed D17 (log entry 16); that a frame with the capture flag clear is read so too is the model's
choice (log entry 21). `dec4` inside a value is pinned by `Dec4IsNearestEven`. -/
def Obligations.ExtremaDecodesOrIsMalformed : Prop :=
  ∀ f s,
    (46 ≤ f.length ∧ AsciiAt f 42 →
      exec (.decodeExtrema f) s = .next { s with stage := .decoded f (extremaAt f) (flagsAt f) }) ∧
    (¬ (46 ≤ f.length ∧ AsciiAt f 42) →
      exec (.decodeExtrema f) s = .next { s with stage := .failed f .malformed })

/-- Layout selection (`42_decoder.md` R126): by bit 0x20 of `f[5]` alone; a frame without `f[5]` is Malformed; the reading
is of the selected layout, never of the other; nothing is retried. The steps start from an open validated hand-off, which is
the model's own and met at no step boundary of a run (log entries 2, 24). -/
def Obligations.LayoutIsSelectedByOneBit : Prop :=
  ∀ s f, s.stage = .validated f →
    (f.length < 6 → step s = .next (takeError .malformed f s)) ∧
    (6 ≤ f.length → (byteAt f 5).getLsbD 5 = false →
      step s = andThen (exec (.decodeDual f) s) (fun t => .next (reportStage t)) ∧
      ∀ r fl, decodeFields f = .ok (r, fl) → ∃ v1 u1 v2 u2, r = .dual v1 u1 v2 u2) ∧
    (6 ≤ f.length → (byteAt f 5).getLsbD 5 = true →
      step s = andThen (exec (.decodeExtrema f) s) (fun t => .next (reportStage t)) ∧
      ∀ r fl, decodeFields f = .ok (r, fl) → ∃ v1 u1 a b c, r = .extrema v1 u1 a b c) ∧
    (6 ≤ f.length → (byteAt f 5).getLsbD 5 = true → f.length < 46 → step s = .next (takeError .malformed f s))

/-- FLAGS (`42_decoder.md` section 3), bit by bit, the same in both layouts; the bytes that hold `error` and `overload` do
not change how the values are decoded. That frames of 15 and 16 bytes have flags rests on the read bound that takes in the
trailer, decision D13 (log entry 15); that a DECODE row hands on these flags on a frame it does not select too is the
model's choice (log entry 21). -/
def Obligations.StatusFlagsAreTheNamedBits : Prop :=
  (∀ f, (15 ≤ f.length → statusFlags f = some (flagsAt f)) ∧ (f.length < 15 → statusFlags f = none)) ∧
  (∀ f s t r fl, (exec (.decodeDual f) s = .next t ∨ exec (.decodeExtrema f) s = .next t) → t.stage = .decoded f r fl →
    fl = flagsAt f) ∧
  (∀ f g : Frame, f.length = g.length → (∀ k, k ≠ 6 → k ≠ 14 → byteAt f k = byteAt g k) →
    dualReading f = dualReading g ∧ extremaReading f = extremaReading g)

/-- UNIT (`42_decoder.md` section 3, decision D11): four code points, every 0x7E becoming U+03A9; Malformed exactly on a
byte of 0x80 or more. -/
def Obligations.UnitTextSubstitutesOmega : Prop :=
  ∀ f : Frame, f.length = 4 →
    (AsciiAt f 0 → unitText f = some (textAt f 0)) ∧ (¬ AsciiAt f 0 → unitText f = none)

/-- DEC4 (`42_decoder.md` section 3, decision D10, over the general-knowledge layout of binary32): the integer nearest to
10000 times the exact value, ties to even; none exactly on a NaN or an infinity. -/
def Obligations.Dec4IsNearestEven : Prop :=
  ∀ raw : BitVec 32,
    (binary32 raw = none → dec4 raw = none) ∧
    (∀ x, binary32 raw = some x → ∃ k : Int, dec4 raw = some k ∧ |10000 * x - (k : ℚ)| ≤ 1 / 2 ∧
      (|10000 * x - (k : ℚ)| = 1 / 2 → Even k))

/-- DECODE raises Malformed in exactly two situations (`42_decoder.md` section 4, decision D17, log entry 16); the bound of a
read takes in the trailer, decision D13 (log entry 15). -/
def Obligations.MalformedExactlyWhen : Prop :=
  ∀ f e, decodeFields f = .error e ↔ e = .malformed ∧
    (f.length < 6 ∨
     ((byteAt f 5).getLsbD 5 = false ∧ (f.length < 31 ∨ ¬ AsciiAt f 15 ∨ ¬ AsciiAt f 27)) ∨
     ((byteAt f 5).getLsbD 5 = true ∧ (f.length < 46 ∨ ¬ AsciiAt f 42)))

/-- Bytes and bits the maps do not name change nothing (`30_encoding.md` section 2): two frames of one length that agree on
the named ones decode alike. -/
def Obligations.UnnamedBytesAreIgnored : Prop :=
  ∀ f g : Frame, f.length = g.length → (∀ k, 3 ≤ k → k ≤ 13 → byteAt f k = byteAt g k) →
    (byteAt f 14).getLsbD 0 = (byteAt g 14).getLsbD 0 →
    ((byteAt f 5).getLsbD 5 = false → (∀ k, 15 ≤ k → k ≤ 18 → byteAt f k = byteAt g k) →
      (∀ k, 23 ≤ k → k ≤ 30 → byteAt f k = byteAt g k) → decodeFields f = decodeFields g) ∧
    ((byteAt f 5).getLsbD 5 = true → (∀ k, 15 ≤ k → k ≤ 45 → k ≠ 19 → k ≠ 28 → k ≠ 37 → byteAt f k = byteAt g k) →
      decodeFields f = decodeFields g)

/-! ### The Command Encoder -/

/-- ENCODE.CONNECT (`43_command_encoder.md` R156). -/
def Obligations.ConnectSendsItsFrame : Prop :=
  ∀ s, exec .encodeConnect s =
    .next { s with outputs := s.outputs ++ [.tx [0x08, 0xAB, 0xCD, 0x04, 0x00, 0x05, 0x01, 0x0A, 0x00]] }

/-- ENCODE.DISCONNECT (`43_command_encoder.md` R157). -/
def Obligations.DisconnectSendsItsFrame : Prop :=
  ∀ s, exec .encodeDisconnect s =
    .next { s with outputs := s.outputs ++ [.tx [0x08, 0xAB, 0xCD, 0x04, 0x00, 0x05, 0x00, 0x09, 0x00]] }

/-- Checksum round trip (`43_command_encoder.md` section 3): the 8 bytes behind the outer length validate, all 9 do not. As
a received frame the 8 bytes are Malformed (`42_decoder.md` section 4, short validated frames; `30_encoding.md` section 6). -/
def Obligations.EncodedCommandsValidate : Prop :=
  ∀ c, validate ((outboundFrame c).drop 1) = .ok () ∧
    validate (outboundFrame c) = .error .unrecognizedHeader ∧
    codec ((outboundFrame c).drop 1) = .error .malformed

/-- The wire form of the cmd port (`43_command_encoder.md` section 3, decision D14): one bit, which is also the low bit of
`code[2]`. -/
def Obligations.CommandWireBit : Prop :=
  (∀ c, commandOfBit (commandBit c) = c) ∧ (∀ w, commandBit (commandOfBit w) = w) ∧
  (∀ c, byteAt (commandCode c) 2 = (commandBit c).setWidth 8)

/-! ### The receive pipeline and its errors -/

/-- RX (`44_rx_pipeline.md` R170), all its cases where the append has room and the counter has its reference width: no
emission; an emission that fails; an emission that decodes, with the Record's number and clock and the counter advanced. -/
def Obligations.ReceiveStepFollowsThePipeline : Prop :=
  ∀ s b t rest, s.stage = .idle → s.ovf = false → s.inputs = .rx b t :: rest → s.params.wf = true →
    (¬ (b = 0xAB ∧ s.buf ≠ []) → s.params.bufCap ≠ some s.buf.length →
      step s = .next { s with inputs := rest, now := t, buf := s.buf ++ [b] }) ∧
    (b = 0xAB → s.buf ≠ [] → ∀ e, codec s.buf = .error e →
      step s = .next { s with inputs := rest, now := t, buf := [0xAB],
                              outputs := s.outputs ++ [.cand s.buf, .err e s.buf] }) ∧
    (b = 0xAB → s.buf ≠ [] → s.params.seqW = none → ∀ r fl, codec s.buf = .ok (r, fl) →
      step s = .next { s with inputs := rest, now := t, buf := [0xAB], seq := s.seq + 1,
                              outputs := s.outputs ++ [.cand s.buf, .record ⟨s.params.seqFirst + s.seq, t, r, fl⟩] })

/-- RX where a parameter is finite, the spec's decisions D3 and D5 (`40_framer.md` section 1, overflow; `44_rx_pipeline.md`
section 2): a full buffer drops the byte and sets the flag (log entry 9), a counter of finite width wraps, its Record's
number not reduced (log entry 6). -/
def Obligations.ReceiveStepWithFiniteParameters : Prop :=
  ∀ s b t rest, s.stage = .idle → s.ovf = false → s.inputs = .rx b t :: rest → s.params.wf = true →
    (¬ (b = 0xAB ∧ s.buf ≠ []) → s.params.bufCap = some s.buf.length →
      step s = .next { s with inputs := rest, now := t, ovf := true }) ∧
    (b = 0xAB → s.buf ≠ [] → ∀ w r fl, s.params.seqW = some w → codec s.buf = .ok (r, fl) →
      step s = .next { s with inputs := rest, now := t, buf := [0xAB], seq := (s.seq + 1) % 2 ^ w,
                              outputs := s.outputs ++ [.cand s.buf, .record ⟨s.params.seqFirst + s.seq, t, r, fl⟩] })

/-- CODEC (`44_rx_pipeline.md` section 1): Err of the first check that fails, else the result of DECODE; a function of the
frame alone, run by the step of every candidate. The step starts from an open candidate hand-off, which is the model's own
and met at no step boundary of a run (log entries 2, 24); the `cand` tap is decision D7 (log entry 22), the Record's number
`SEQ_FIRST + seq` decision D5 (log entry 5). -/
def Obligations.CodecIsValidateThenDecode : Prop :=
  ∀ s f, s.stage = .candidate f →
    (∀ e, validate f = .error e → codec f = .error e ∧
      step s = .next { s with stage := .idle, outputs := s.outputs ++ [.cand f, .err e f] }) ∧
    (validate f = .ok () → ∀ e, decodeFields f = .error e → codec f = .error e ∧
      step s = .next { s with stage := .idle, outputs := s.outputs ++ [.cand f, .err e f] }) ∧
    (validate f = .ok () → ∀ r fl, decodeFields f = .ok (r, fl) → codec f = .ok (r, fl) ∧
      ∃ t, step s = .next t ∧ t.stage = .idle ∧ t.buf = s.buf ∧
        t.outputs = s.outputs ++ [.cand f, .record ⟨s.params.seqFirst + s.seq, s.now, r, fl⟩])

/-- What an error does ("trap entry", `60_exceptions.md` R203): one `err` event with the kind and the frame; the buffer,
the counter and the flag are those the FEED part left; no Record; the block is ready for the next event. -/
def Obligations.ErrorsArePrecise : Prop :=
  ∀ s t rest e, s.stage = .idle → s.ovf = false → s.inputs = .rx 0xAB t :: rest → s.params.wf = true → s.buf ≠ [] →
    codec s.buf = .error e →
    ∃ u v, exec .feedSync (sampleClock (.rx 0xAB t) { s with inputs := rest }) = .next v ∧ step s = .next u ∧
      u = { v with stage := .idle, outputs := s.outputs ++ [.cand s.buf, .err e s.buf] } ∧
      u.seq = s.seq ∧ u.buf = [0xAB] ∧ records (newOutputs s u) = []

/-- The numbers of the error kinds (`60_exceptions.md` section 1, decision D12), in validation order, 0 unused. -/
def Obligations.ErrorKindsAreNumbered : Prop :=
  errorCode .unrecognizedHeader = 1 ∧ (∀ d a, errorCode (.lengthMismatch d a) = 2) ∧
  errorCode .checksumMismatch = 3 ∧ errorCode .malformed = 4 ∧ ∀ e, errorCode e ≠ 0

/-- Records of a run are numbered consecutively from `SEQ_FIRST + seq`, however many frames fail between them
(`44_rx_pipeline.md` section 2, decision D5), with the reference width and buffer, over `rx` and `cmd` events. -/
def Obligations.RecordsAreNumberedConsecutively : Prop :=
  ∀ s, s.stage = .idle → s.ovf = false → s.params.bufCap = none → s.params.seqW = none →
    (∀ ev ∈ s.inputs, ev ≠ .reset) →
    ∃ t, run s.inputs.length s = .next t ∧
      t.seq = s.seq + (records (newOutputs s t)).length ∧
      (records (newOutputs s t)).map Record.sequence =
        (List.range (records (newOutputs s t)).length).map fun j => s.params.seqFirst + s.seq + j

/-- The clock reaches a Record's timestamp and nothing else (`44_rx_pipeline.md` section 2): of two runs of any block fed
the same events with different clock values, if one stops so does the other, for the same reason; if one ends in a next
state so does the other, with the same buffer, counter and flag, and the same output events in the same order but for the
timestamps of the Records. On the unbounded buffer both end so. -/
def Obligations.TheClockReachesOnlyTimestamps : Prop :=
  ∀ s evs evs', s.stage = .idle → evs.map eventWord = evs'.map eventWord →
    (∀ t, run evs.length { s with inputs := evs } = .next t →
      ∃ t', run evs'.length { s with inputs := evs' } = .next t' ∧ t.buf = t'.buf ∧ t.seq = t'.seq ∧ t.ovf = t'.ovf ∧
        (newOutputs s t).map eraseTimestamp = (newOutputs s t').map eraseTimestamp) ∧
    (∀ r, run evs.length { s with inputs := evs } = .fault r → run evs'.length { s with inputs := evs' } = .fault r) ∧
    (s.ovf = false → s.params.bufCap = none → ∃ t, run evs.length { s with inputs := evs } = .next t)

/-- A command and a received byte commute in everything but the interleaving of the `tx` (`20_memory.md` section 6,
`44_rx_pipeline.md` section 3), where the byte does not overflow the buffer. -/
def Obligations.CommandsAndBytesCommute : Prop :=
  ∀ s c b t, s.stage = .idle → s.ovf = false → s.params.wf = true → (b = 0xAB ∨ s.params.bufCap ≠ some s.buf.length) →
    ∃ u v w, run 2 { s with inputs := [.cmd c, .rx b t] } = .next u ∧ run 2 { s with inputs := [.rx b t, .cmd c] } = .next v ∧
      u.buf = v.buf ∧ u.seq = v.seq ∧ u.ovf = v.ovf ∧
      receiveSide (newOutputs s u) = receiveSide (newOutputs s v) ∧
      newOutputs s u = .tx w :: receiveSide (newOutputs s u) ∧ newOutputs s v = receiveSide (newOutputs s v) ++ [.tx w]

/-- The frames of the operations that write no state (`41_validator.md` R105, `42_decoder.md` R125, `43_command_encoder.md`
R155): VALIDATE and DECODE leave every state element, every byte of the buffer and every output as it was; ENCODE adds one
`tx` to the outputs and leaves the rest, the hand-off too. -/
def Obligations.CodecAndEncoderWriteNoState : Prop :=
  (∀ f s t, (exec (.validate f) s = .next t ∨ exec (.decodeExtrema f) s = .next t ∨ exec (.decodeDual f) s = .next t) →
    t.buf = s.buf ∧ (∀ a, Memory.read t.buf a = Memory.read s.buf a) ∧ t.seq = s.seq ∧ t.ovf = s.ovf ∧ t.params = s.params ∧
    t.now = s.now ∧ t.inputs = s.inputs ∧ t.outputs = s.outputs) ∧
  (∀ s t, (exec .encodeConnect s = .next t ∨ exec .encodeDisconnect s = .next t) →
    t.buf = s.buf ∧ (∀ a, Memory.read t.buf a = Memory.read s.buf a) ∧ t.seq = s.seq ∧ t.ovf = s.ovf ∧ t.params = s.params ∧
    t.now = s.now ∧ t.inputs = s.inputs ∧ t.stage = s.stage ∧ ∃ w, t.outputs = s.outputs ++ [.tx w])
end

