-- ==== Sys2Proof/Laws/Operands.lean ====
section
/-! SUPPORT. What each operand form does: one lemma per function of `Machine/Operands.lean` and `Machine/Flags.lean`. -/

namespace Sys2Proof.Machine

open Sys2Proof.Safety

theorem frameRead_none (f : Frame) (off n : Nat) (h : f.length < off + n) : frameRead f off n = none := by
  simp [frameRead, Nat.not_le.mpr h]

/-- A read inside the frame gives the bytes at its offsets. -/
theorem frameRead_some (f : Frame) (off n : Nat) (h : off + n ≤ f.length) :
    frameRead f off n = some ((List.range n).map fun k => byteAt f (off + k)) := by
  simp only [frameRead, h, if_true, Option.some.injEq]
  apply List.ext_getElem
  · simp; omega
  · intro i h1 h2
    simp at h1 h2
    have : off + i < f.length := by omega
    simp [byteAt, List.getElem?_eq_getElem this]

theorem frameRead_four (f : Frame) (off : Nat) (h : off + 4 ≤ f.length) :
    frameRead f off 4 = some [byteAt f off, byteAt f (off + 1), byteAt f (off + 2), byteAt f (off + 3)] := by
  rw [frameRead_some f off 4 h]; rfl

theorem readByte_some (f : Frame) (off : Nat) (h : off < f.length) : readByte f off = some (byteAt f off) := by
  rw [readByte, frameRead_some f off 1 h]; rfl

theorem readByte_none (f : Frame) (off : Nat) (h : f.length ≤ off) : readByte f off = none := by
  rw [readByte, frameRead_none f off 1 (by omega)]; rfl

theorem leNat_four (b0 b1 b2 b3 : Byte) :
    leNat [b0, b1, b2, b3] = b0.toNat + 256 * b1.toNat + 65536 * b2.toNat + 16777216 * b3.toNat := by
  simp only [leNat]; omega

theorem u32le_four (f : Frame) (off : Nat) :
    u32le [byteAt f off, byteAt f (off + 1), byteAt f (off + 2), byteAt f (off + 3)] = u32At f off := by
  rw [u32le, leNat_four]; rfl

theorem readValue_some (f : Frame) (off : Nat) (h : off + 4 ≤ f.length) : readValue f off = some (floatAt f off) := by
  rw [readValue, frameRead_four f off h, Option.map_some, u32le_four]; rfl

theorem readValue_none (f : Frame) (off : Nat) (h : f.length < off + 4) : readValue f off = none := by
  rw [readValue, frameRead_none f off 4 h]; rfl

theorem readDuration_some (f : Frame) (off : Nat) (h : off + 4 ≤ f.length) : readDuration f off = some (u32At f off) := by
  rw [readDuration, frameRead_four f off h, Option.map_some, u32le_four]

theorem readSample_some (f : Frame) (off : Nat) (h : off + 9 ≤ f.length) :
    readSample f off = some ⟨floatAt f off, u32At f (off + 5)⟩ := by
  rw [readSample, readValue_some f off (by omega), readDuration_some f (off + 5) (by omega)]; rfl

theorem unitChar_eq_glyph (f : Frame) (off : Nat) : unitChar (byteAt f off) = glyphAt f off := by
  simp [unitChar, glyphAt, omegaCode, BitVec.toNat_eq]

theorem isAscii_iff (b : Byte) : isAscii b = true ↔ b.toNat < 128 := by simp [isAscii]

theorem asciiAt_iff (f : Frame) (off : Nat) : AsciiAt f off ↔
    (byteAt f off).toNat < 128 ∧ (byteAt f (off + 1)).toNat < 128 ∧ (byteAt f (off + 2)).toNat < 128 ∧
      (byteAt f (off + 3)).toNat < 128 := by
  constructor
  · intro h
    exact ⟨h 0 (by omega), h 1 (by omega), h 2 (by omega), h 3 (by omega)⟩
  · rintro ⟨h0, h1, h2, h3⟩ i hi
    interval_cases i <;> assumption

/-- The four bytes at an offset as unit text: some exactly when all are ASCII. -/
theorem unitText_of_ascii (f : Frame) (off : Nat) (h : AsciiAt f off) :
    unitText [byteAt f off, byteAt f (off + 1), byteAt f (off + 2), byteAt f (off + 3)] = some (textAt f off) := by
  obtain ⟨h0, h1, h2, h3⟩ := (asciiAt_iff f off).mp h
  simp [unitText, isAscii, h0, h1, h2, h3, unitChar_eq_glyph, textAt]

theorem unitText_of_not_ascii (f : Frame) (off : Nat) (h : ¬ AsciiAt f off) :
    unitText [byteAt f off, byteAt f (off + 1), byteAt f (off + 2), byteAt f (off + 3)] = none := by
  rw [asciiAt_iff] at h
  exact if_neg (by simpa [isAscii, and_assoc] using h)

theorem readUnit_some (f : Frame) (off : Nat) (h : off + 4 ≤ f.length) (ha : AsciiAt f off) :
    readUnit f off = some (textAt f off) := by
  rw [readUnit, frameRead_four f off h, Option.bind_some, unitText_of_ascii f off ha]

theorem readUnit_none (f : Frame) (off : Nat) (h : f.length < off + 4 ∨ ¬ AsciiAt f off) : readUnit f off = none := by
  by_cases hl : off + 4 ≤ f.length
  · rw [readUnit, frameRead_four f off hl, Option.bind_some, unitText_of_not_ascii f off (h.resolve_left (by omega))]
  · rw [readUnit, frameRead_none f off 4 (by omega)]; rfl

/-- A mask of one bit is that bit. -/
theorem maskSet_twoPow (b : Byte) (k : Nat) : maskSet b (BitVec.twoPow 8 k) = b.getLsbD k := by
  simp only [maskSet, BitVec.and_twoPow]
  by_cases h : b.getLsbD k = true
  · have hk : k < 8 := by
      by_contra hk
      simp [BitVec.getLsbD_of_ge b k (by omega)] at h
    simp only [h, if_true]
    rw [bne_iff_ne]
    intro h0
    have := congrArg (fun v : Byte => v.getLsbD k) h0
    simp [hk] at this
  · simp [h]

theorem maskSet_hold (b : Byte) : maskSet b 0x80 = b.getLsbD 7 := maskSet_twoPow b 7
theorem maskSet_capture (b : Byte) : maskSet b 0x20 = b.getLsbD 5 := maskSet_twoPow b 5
theorem maskSet_error (b : Byte) : maskSet b 0x08 = b.getLsbD 3 := maskSet_twoPow b 3
theorem maskSet_low (b : Byte) : maskSet b 0x01 = b.getLsbD 0 := maskSet_twoPow b 0

theorem selectLayout_none (f : Frame) (h : f.length < 6) : selectLayout f = none := by
  rw [selectLayout, readByte_none f 5 (by omega)]; rfl

theorem selectLayout_some (f : Frame) (h : 6 ≤ f.length) :
    selectLayout f = some (if captureBit f then .decodeExtrema f else .decodeDual f) := by
  rw [selectLayout, readByte_some f 5 (by omega), Option.map_some, maskSet_capture]; rfl

theorem length_le16 (v : Nat) : (le16 v).length = 2 := rfl

theorem sumBytes_eq (s : Frame) : sumBytes s = (s.map BitVec.toNat).sum := by
  induction s with
  | nil => rfl
  | cons b bs ih => simp [sumBytes, ih]

theorem sumBytes_le (s : Frame) : sumBytes s ≤ 255 * s.length := by
  induction s with
  | nil => simp [sumBytes]
  | cons b bs ih =>
    have := b.isLt
    simp only [sumBytes, List.length_cons]; omega

/-- Two bytes are the low and high byte of a number below 65536 exactly when they compare so. -/
theorem eq_le16_iff (a b : Byte) (v : Nat) (h : v < 65536) :
    [a, b] = le16 v ↔ a.toNat = v % 256 ∧ b.toNat = v / 256 := by
  simp [le16, BitVec.toNat_eq]
  omega

/-- The rounding of DEC4: within a half of the quotient, a tie going to the even integer. -/
theorem roundHalfEven_spec (num den : Nat) (h : 0 < den) :
    2 * num ≤ 2 * (roundHalfEven num den * den) + den ∧ 2 * (roundHalfEven num den * den) ≤ 2 * num + den ∧
    ((2 * num = 2 * (roundHalfEven num den * den) + den ∨ 2 * (roundHalfEven num den * den) = 2 * num + den) →
      roundHalfEven num den % 2 = 0) := by
  have hdm := Nat.div_add_mod num den
  have hlt := Nat.mod_lt num h
  have e1 : num / den * den = den * (num / den) := Nat.mul_comm _ _
  have e2 : (num / den + 1) * den = den * (num / den) + den := by ring
  unfold roundHalfEven
  simp only
  split_ifs with h1 h2 h3 <;> simp only [e1, e2] <;> refine ⟨?_, ?_, ?_⟩ <;> omega

end Sys2Proof.Machine
end

