-- ==== Sys2Proof/Laws/State.lean ====
section
/-! SUPPORT. One lemma per field for each named operation over the state, true by rfl. -/

namespace Sys2Proof.Machine

/-! ### `emit` -/

@[simp] theorem emit_buf (ev : OutputEvent) (s : State) : (emit ev s).buf = s.buf := rfl
@[simp] theorem emit_seq (ev : OutputEvent) (s : State) : (emit ev s).seq = s.seq := rfl
@[simp] theorem emit_ovf (ev : OutputEvent) (s : State) : (emit ev s).ovf = s.ovf := rfl
@[simp] theorem emit_params (ev : OutputEvent) (s : State) : (emit ev s).params = s.params := rfl
@[simp] theorem emit_stage (ev : OutputEvent) (s : State) : (emit ev s).stage = s.stage := rfl
@[simp] theorem emit_now (ev : OutputEvent) (s : State) : (emit ev s).now = s.now := rfl
@[simp] theorem emit_inputs (ev : OutputEvent) (s : State) : (emit ev s).inputs = s.inputs := rfl
@[simp] theorem emit_outputs (ev : OutputEvent) (s : State) : (emit ev s).outputs = s.outputs ++ [ev] := rfl

/-! ### `takeCandidate` -/

@[simp] theorem takeCandidate_buf (s : State) : (takeCandidate s).buf = [] := rfl
@[simp] theorem takeCandidate_seq (s : State) : (takeCandidate s).seq = s.seq := rfl
@[simp] theorem takeCandidate_ovf (s : State) : (takeCandidate s).ovf = s.ovf := rfl
@[simp] theorem takeCandidate_params (s : State) : (takeCandidate s).params = s.params := rfl
@[simp] theorem takeCandidate_stage (s : State) : (takeCandidate s).stage = .candidate s.buf := rfl
@[simp] theorem takeCandidate_now (s : State) : (takeCandidate s).now = s.now := rfl
@[simp] theorem takeCandidate_inputs (s : State) : (takeCandidate s).inputs = s.inputs := rfl
@[simp] theorem takeCandidate_outputs (s : State) : (takeCandidate s).outputs = s.outputs := rfl

/-! ### `takeError` -/

@[simp] theorem takeError_buf (e : DecodeError) (f : Frame) (s : State) : (takeError e f s).buf = s.buf := rfl
@[simp] theorem takeError_seq (e : DecodeError) (f : Frame) (s : State) : (takeError e f s).seq = s.seq := rfl
@[simp] theorem takeError_ovf (e : DecodeError) (f : Frame) (s : State) : (takeError e f s).ovf = s.ovf := rfl
@[simp] theorem takeError_params (e : DecodeError) (f : Frame) (s : State) : (takeError e f s).params = s.params := rfl
@[simp] theorem takeError_stage (e : DecodeError) (f : Frame) (s : State) : (takeError e f s).stage = .idle := rfl
@[simp] theorem takeError_now (e : DecodeError) (f : Frame) (s : State) : (takeError e f s).now = s.now := rfl
@[simp] theorem takeError_inputs (e : DecodeError) (f : Frame) (s : State) : (takeError e f s).inputs = s.inputs := rfl
@[simp] theorem takeError_outputs (e : DecodeError) (f : Frame) (s : State) :
    (takeError e f s).outputs = s.outputs ++ [.err e f] := rfl
@[simp] theorem returnFromError_eq (s : State) : returnFromError s = s := rfl

/-! ### `produceRecord` -/

@[simp] theorem produceRecord_buf (r : Reading) (fl : StatusFlags) (s : State) : (produceRecord r fl s).buf = s.buf := rfl
@[simp] theorem produceRecord_seq (r : Reading) (fl : StatusFlags) (s : State) :
    (produceRecord r fl s).seq = nextSeq s.params s.seq := rfl
@[simp] theorem produceRecord_ovf (r : Reading) (fl : StatusFlags) (s : State) : (produceRecord r fl s).ovf = s.ovf := rfl
@[simp] theorem produceRecord_params (r : Reading) (fl : StatusFlags) (s : State) :
    (produceRecord r fl s).params = s.params := rfl
@[simp] theorem produceRecord_stage (r : Reading) (fl : StatusFlags) (s : State) :
    (produceRecord r fl s).stage = .idle := rfl
@[simp] theorem produceRecord_now (r : Reading) (fl : StatusFlags) (s : State) : (produceRecord r fl s).now = s.now := rfl
@[simp] theorem produceRecord_inputs (r : Reading) (fl : StatusFlags) (s : State) :
    (produceRecord r fl s).inputs = s.inputs := rfl
@[simp] theorem produceRecord_outputs (r : Reading) (fl : StatusFlags) (s : State) :
    (produceRecord r fl s).outputs = s.outputs ++ [.record ⟨sequenceNumber s, s.now, r, fl⟩] := rfl

/-! ### `sampleClock` -/

@[simp] theorem sampleClock_rx (b : Byte) (t : Timestamp) (s : State) : sampleClock (.rx b t) s = { s with now := t } := rfl
@[simp] theorem sampleClock_reset (s : State) : sampleClock .reset s = s := rfl
@[simp] theorem sampleClock_cmd (c : Command) (s : State) : sampleClock (.cmd c) s = s := rfl

/-! ### `andThen` -/

@[simp] theorem andThen_next (s : State) (k : State → Host.Outcome State Fault Refusal) : andThen (.next s) k = k s := rfl
@[simp] theorem andThen_fault (r : Fault) (k : State → Host.Outcome State Fault Refusal) :
    andThen (.fault r) k = .fault r := rfl
@[simp] theorem andThen_refused (r : Refusal) (k : State → Host.Outcome State Fault Refusal) :
    andThen (.refused r) k = .refused r := rfl

theorem andThen_assoc (o : Host.Outcome State Fault Refusal) (k l : State → Host.Outcome State Fault Refusal) :
    andThen (andThen o k) l = andThen o fun s => andThen (k s) l := by
  cases o <;> rfl

end Sys2Proof.Machine
end

