-- ==== Sys2Proof/Laws/Codec.lean ====
section
/-! SUPPORT. What VALIDATE and DECODE do: the checks of the envelope as facts about bytes, and the two layouts as the
field maps of `Sys2Proof/Safety.lean`. -/

namespace Sys2Proof.Machine

open Sys2Proof.Safety

/-! ### VALIDATE -/

theorem headerOk_iff (f : Frame) : headerOk f = true ↔ 2 ≤ f.length ∧ byteAt f 0 = sync0 ∧ byteAt f 1 = sync1 := by
  simp [headerOk, and_assoc]

theorem lengthOk_iff (f : Frame) : lengthOk f = true ↔ 4 ≤ f.length ∧ (byteAt f 2).toNat = f.length - 4 := by
  unfold lengthOk declaredLength actualLength
  by_cases h : 3 ≤ f.length
  · simp only [h, if_true, decide_eq_true_eq]; omega
  · simp only [h, if_false, Bool.false_eq_true, false_iff]; omega

theorem trailer_eq (f : Frame) (h : 2 ≤ f.length) :
    trailer f = [byteAt f (f.length - 2), byteAt f (f.length - 1)] := by
  apply List.ext_getElem
  · simp [trailer]; omega
  · intro i h1 h2
    simp at h2
    interval_cases i
    · have : f.length - 2 < f.length := by omega
      simp [trailer, byteAt, List.getElem?_eq_getElem this]
    · have : f.length - 1 < f.length := by omega
      have e : f.length - 2 + 1 = f.length - 1 := by omega
      simp [trailer, byteAt, List.getElem?_eq_getElem this, e]

theorem checksumOk_iff (f : Frame) (h : 2 ≤ f.length) : checksumOk f = true ↔
    (byteAt f (f.length - 2)).toNat = rangeSum f % 256 ∧ (byteAt f (f.length - 1)).toNat = rangeSum f / 256 := by
  rw [checksumOk, beq_iff_eq, trailer_eq f h, checksum, eq_le16_iff _ _ _ (Nat.mod_lt _ (by norm_num)), sumBytes_eq]
  rfl

theorem validate_ok_iff (f : Frame) : validate f = .ok () ↔ headerOk f = true ∧ lengthOk f = true ∧ checksumOk f = true := by
  unfold validate
  cases headerOk f <;> cases lengthOk f <;> cases checksumOk f <;> simp

/-- VALIDATE answers one of its three kinds, never Malformed. -/
theorem validate_not_malformed (f : Frame) : validate f ≠ .error .malformed := by
  unfold validate
  cases headerOk f <;> cases lengthOk f <;> cases checksumOk f <;> simp

theorem exec_validate_ok (f : Frame) (s : State) (h : validate f = .ok ()) :
    exec (.validate f) s = .next { s with stage := .validated f } := by
  simp only [exec, execValidate, h]

theorem exec_validate_error (f : Frame) (s : State) (e : DecodeError) (h : validate f = .error e) :
    exec (.validate f) s = .next { s with stage := .failed f e } := by
  simp only [exec, execValidate, h]

/-! ### DECODE -/

theorem statusFlags_some (f : Frame) (h : 15 ≤ f.length) : statusFlags f = some (flagsAt f) := by
  rw [statusFlags, readByte_some f 9 (by omega), readByte_some f 5 (by omega), readByte_some f 6 (by omega),
    readByte_some f 14 (by omega), frameRead_some f 3 7 (by omega)]
  simp only [Option.bind_some, Option.map_some, Option.some.injEq, maskSet_hold, maskSet_low, maskSet_error]
  rfl

theorem statusFlags_none (f : Frame) (h : f.length < 15) : statusFlags f = none := by
  rw [statusFlags, readByte_none f 14 (by omega)]
  cases readByte f 9 <;> cases readByte f 5 <;> cases readByte f 6 <;> rfl

theorem dualReading_some (f : Frame) (h : 31 ≤ f.length) (h1 : AsciiAt f 15) (h2 : AsciiAt f 27) :
    dualReading f = some (dualAt f) := by
  rw [dualReading, readValue_some f 10 (by omega), readUnit_some f 15 (by omega) h1, readValue_some f 23 (by omega),
    readUnit_some f 27 (by omega) h2]
  rfl

theorem dualReading_none (f : Frame) (h : ¬ (31 ≤ f.length ∧ AsciiAt f 15 ∧ AsciiAt f 27)) : dualReading f = none := by
  by_cases h1 : f.length < 15 + 4 ∨ ¬ AsciiAt f 15
  · rw [dualReading, readUnit_none f 15 h1]
    cases readValue f 10 <;> rfl
  · have h2 : f.length < 27 + 4 ∨ ¬ AsciiAt f 27 := by
      by_contra hc
      push Not at h1 hc
      exact h ⟨by omega, h1.2, hc.2⟩
    rw [dualReading, readUnit_none f 27 h2]
    cases readValue f 10 <;> cases readUnit f 15 <;> cases readValue f 23 <;> rfl

theorem extremaReading_some (f : Frame) (h : 46 ≤ f.length) (h1 : AsciiAt f 42) :
    extremaReading f = some (extremaAt f) := by
  rw [extremaReading, readValue_some f 10 (by omega), readUnit_some f 42 (by omega) h1, readSample_some f 15 (by omega),
    readSample_some f 24 (by omega), readSample_some f 33 (by omega)]
  rfl

theorem extremaReading_none (f : Frame) (h : ¬ (46 ≤ f.length ∧ AsciiAt f 42)) : extremaReading f = none := by
  have h1 : f.length < 42 + 4 ∨ ¬ AsciiAt f 42 := by
    by_contra hc
    push Not at hc
    exact h ⟨by omega, hc.2⟩
  rw [extremaReading, readUnit_none f 42 h1]
  cases readValue f 10 <;> rfl

/-- DECODE hands on its result or Malformed, and touches nothing else. -/
theorem deliver_eq (f : Frame) (fl : Option StatusFlags) (r : Option Reading) (s : State) :
    deliver f fl r s = { s with stage := (match fl, r with | some fl, some r => .decoded f r fl | _, _ => .failed f .malformed) } := by
  cases fl <;> cases r <;> rfl

/-- DECODE as a function ends as Malformed or as a result. -/
theorem decodeFields_error (f : Frame) (e : DecodeError) (h : decodeFields f = .error e) : e = .malformed := by
  unfold decodeFields at h
  simp only at h
  split at h
  · cases h
  · injection h with h; exact h.symm

/-- DECODE of a frame, whichever layout it selects, hands on what `decodeFields` says. -/
theorem runDecode_eq (f : Frame) (s : State) :
    runDecode f s = .next { s with stage := (match decodeFields f with
      | .ok (r, fl) => .decoded f r fl
      | .error e => .failed f e) } := by
  by_cases h : f.length < 6
  · simp [runDecode, decodeFields, selectLayout_none f h]
  · have hs := selectLayout_some f (by omega)
    cases hc : captureBit f with
    | true =>
      rw [hc] at hs
      simp only [if_true] at hs
      simp only [runDecode, decodeFields, hs, exec, execDecodeExtrema, deliver_eq]
      cases statusFlags f <;> cases extremaReading f <;> rfl
    | false =>
      rw [hc] at hs
      simp only [Bool.false_eq_true, if_false] at hs
      simp only [runDecode, decodeFields, hs, exec, execDecodeDual, deliver_eq]
      cases statusFlags f <;> cases dualReading f <;> rfl

end Sys2Proof.Machine
end

