-- ==== Sys2Proof/Laws/Framer.lean ====
section
/-! SUPPORT. What the buffer operations and FEED do, and that every operation keeps the buffer's canonical form. -/

namespace Sys2Proof.Machine

open Sys2Proof.Safety

/-! ### The constants -/

theorem sync0_eq : sync0 = 0xAB := rfl
theorem sync1_eq : sync1 = 0xCD := rfl

/-! ### `appendByte` -/

theorem appendByte_room (b : Byte) (s : State) (h : bufferFull s.params s.buf = false) :
    appendByte b s = { s with buf := s.buf ++ [b] } := by simp [appendByte, h]

theorem appendByte_full (b : Byte) (s : State) (h : bufferFull s.params s.buf = true) :
    appendByte b s = { s with ovf := true } := by simp [appendByte, h]

theorem bufferFull_iff (p : Params) (m : Memory) : bufferFull p m = true ↔ p.bufCap = some m.length := by
  rcases p with ⟨_ | c, _, _⟩ <;> simp [bufferFull, eq_comm]

theorem bufferFull_false_iff (p : Params) (m : Memory) : bufferFull p m = false ↔ p.bufCap ≠ some m.length := by
  rw [← Bool.not_eq_true, bufferFull_iff]

theorem params_wf_iff (p : Params) : p.wf = true ↔ ∀ c, p.bufCap = some c → 260 ≤ c := by
  rcases p with ⟨_ | c, _, _⟩
  · simp [Params.wf]
  · simp only [Params.wf, decide_eq_true_eq, Option.some.injEq, forall_eq']; rfl

/-- The empty buffer of a legal block has room. -/
theorem bufferFull_nil (p : Params) (h : p.wf = true) : bufferFull p [] = false := by
  rcases p with ⟨_ | c, _, _⟩
  · rfl
  · simp [Params.wf, minBufCap] at h
    rw [bufferFull_false_iff]
    intro hc
    injection hc with hc
    subst hc
    exact absurd h (by decide)

@[simp] theorem appendByte_seq (b : Byte) (s : State) : (appendByte b s).seq = s.seq := by
  unfold appendByte; split <;> rfl
@[simp] theorem appendByte_params (b : Byte) (s : State) : (appendByte b s).params = s.params := by
  unfold appendByte; split <;> rfl
@[simp] theorem appendByte_stage (b : Byte) (s : State) : (appendByte b s).stage = s.stage := by
  unfold appendByte; split <;> rfl
@[simp] theorem appendByte_now (b : Byte) (s : State) : (appendByte b s).now = s.now := by
  unfold appendByte; split <;> rfl
@[simp] theorem appendByte_inputs (b : Byte) (s : State) : (appendByte b s).inputs = s.inputs := by
  unfold appendByte; split <;> rfl
@[simp] theorem appendByte_outputs (b : Byte) (s : State) : (appendByte b s).outputs = s.outputs := by
  unfold appendByte; split <;> rfl

/-! ### The canonical form of the buffer -/

theorem memWf_iff (p : Params) (m : Memory) : Memory.wf p m = true ↔ ∀ c, p.bufCap = some c → m.length ≤ c := by
  rcases p with ⟨_ | c, _, _⟩ <;> simp [Memory.wf]

theorem memWf_nil (p : Params) : Memory.wf p [] = true := by simp [memWf_iff]

/-- The buffer write keeps the form. -/
theorem appendByte_memWf (b : Byte) (s : State) (h : Memory.wf s.params s.buf = true) :
    Memory.wf (appendByte b s).params (appendByte b s).buf = true := by
  rw [appendByte_params]
  by_cases hf : bufferFull s.params s.buf = true
  · rw [appendByte_full b s hf]; exact h
  · rw [Bool.not_eq_true] at hf
    rw [appendByte_room b s hf]
    rw [memWf_iff] at h ⊢
    intro c hc
    have h1 := h c hc
    have h2 : s.params.bufCap ≠ some s.buf.length := (bufferFull_false_iff _ _).mp hf
    rw [hc] at h2
    simp at h2 ⊢
    omega

/-- The buffer read and clear keeps the form. -/
theorem takeCandidate_memWf (s : State) : Memory.wf (takeCandidate s).params (takeCandidate s).buf = true := memWf_nil _

/-- The buffer after reset has the form. -/
theorem reset_memWf : Memory.wf State.reset.params State.reset.buf = true := memWf_nil _

/-- A byte written is read back at the end of the buffer. -/
theorem memRead_append_same (m : Memory) (b : Byte) : Memory.read (m ++ [b]) m.length = some b := by simp [Memory.read]

/-- A write leaves every other offset alone. -/
theorem memRead_append_other (m : Memory) (b : Byte) (a : Nat) (h : a ≠ m.length) :
    Memory.read (m ++ [b]) a = Memory.read m a := by
  unfold Memory.read
  rcases Nat.lt_or_gt_of_ne h with h | h
  · rw [List.getElem?_append_left h]
  · rw [List.getElem?_eq_none (by simp; omega), List.getElem?_eq_none (by omega)]

/-- The cell view lists the addresses from 0 upward, strictly rising, each once. -/
theorem memCells_addresses (m : Memory) : (Memory.cells m).map Prod.fst = List.range m.length := by
  simp only [Memory.cells, List.map_map]
  have : (Prod.fst ∘ fun c : Byte × Nat => ((c.2, c.1) : Host.Cell)) = Prod.snd := rfl
  rw [this, List.zipIdx_map_snd, List.range_eq_range']

/-! ### `feed` -/

theorem feed_split (s : State) (hp : s.params.wf = true) (hb : s.buf ≠ []) :
    feed sync0 s = { s with stage := .candidate s.buf, buf := [sync0] } := by
  simp only [feed, splitAtSync, hb, ne_eq, not_false_eq_true, and_self, if_true]
  rw [appendByte_room _ _ (bufferFull_nil _ hp)]; rfl

theorem splitAtSync_no_emission (b : Byte) (s : State) (h : ¬ (b = sync0 ∧ s.buf ≠ [])) :
    splitAtSync b s = { s with stage := .idle } := by simp only [splitAtSync, h, if_false]

theorem feed_append (b : Byte) (s : State) (h : ¬ (b = sync0 ∧ s.buf ≠ [])) (hr : s.params.bufCap ≠ some s.buf.length) :
    feed b s = { s with stage := .idle, buf := s.buf ++ [b] } := by
  rw [feed, splitAtSync_no_emission b s h, appendByte_room]
  exact (bufferFull_false_iff _ _).mpr hr

theorem feed_overflow (b : Byte) (s : State) (h : ¬ (b = sync0 ∧ s.buf ≠ [])) (hr : s.params.bufCap = some s.buf.length) :
    feed b s = { s with stage := .idle, ovf := true } := by
  rw [feed, splitAtSync_no_emission b s h, appendByte_full]
  exact (bufferFull_iff _ _).mpr hr

@[simp] theorem splitAtSync_seq (b : Byte) (s : State) : (splitAtSync b s).seq = s.seq := by
  unfold splitAtSync; split <;> rfl
@[simp] theorem splitAtSync_ovf (b : Byte) (s : State) : (splitAtSync b s).ovf = s.ovf := by
  unfold splitAtSync; split <;> rfl
@[simp] theorem splitAtSync_params (b : Byte) (s : State) : (splitAtSync b s).params = s.params := by
  unfold splitAtSync; split <;> rfl
@[simp] theorem splitAtSync_now (b : Byte) (s : State) : (splitAtSync b s).now = s.now := by
  unfold splitAtSync; split <;> rfl
@[simp] theorem splitAtSync_inputs (b : Byte) (s : State) : (splitAtSync b s).inputs = s.inputs := by
  unfold splitAtSync; split <;> rfl
@[simp] theorem splitAtSync_outputs (b : Byte) (s : State) : (splitAtSync b s).outputs = s.outputs := by
  unfold splitAtSync; split <;> rfl

@[simp] theorem feed_seq (b : Byte) (s : State) : (feed b s).seq = s.seq := by simp [feed]
@[simp] theorem feed_params (b : Byte) (s : State) : (feed b s).params = s.params := by simp [feed]
@[simp] theorem feed_now (b : Byte) (s : State) : (feed b s).now = s.now := by simp [feed]
@[simp] theorem feed_inputs (b : Byte) (s : State) : (feed b s).inputs = s.inputs := by simp [feed]
@[simp] theorem feed_outputs (b : Byte) (s : State) : (feed b s).outputs = s.outputs := by simp [feed]

/-- FEED hands on the whole buffer, or nothing. -/
theorem feed_stage (b : Byte) (s : State) :
    (feed b s).stage = if b = sync0 ∧ s.buf ≠ [] then .candidate s.buf else .idle := by
  rw [feed, appendByte_stage, splitAtSync]; split <;> rfl

/-- What a received byte's instruction is: FEED of the byte. -/
theorem exec_feedInstr (b : Byte) (s : State) : exec (feedInstr b) s = .next (feed b s) := by
  by_cases h : b = sync0
  · subst h; rfl
  · simp only [feedInstr, h, if_false]; rfl

end Sys2Proof.Machine
end

