-- ==== Sys2Proof/Laws/PerInstr.lean ====
section
/-! SUPPORT. Per instruction: the bytes it is encoded as lie in the format of its row of `spec/opcode_table.json`, and are
the ones that row, and no row listed before it in that format, selects exactly when the instruction is well-formed
(`30_encoding.md` R71). -/

namespace Sys2Proof.Laws.EncodeMatchesRow

open Sys2Proof.Machine

/-- The format of each row of the table. -/
def formatOf : Instr → Format
  | .reset => .event
  | .feedSync => .rxByte
  | .feedData _ => .rxByte
  | .validate _ => .frame
  | .decodeExtrema _ => .validated
  | .decodeDual _ => .validated
  | .encodeConnect => .cmd
  | .encodeDisconnect => .cmd

/-- What a row asks of its input. RESET has no bits; VALIDATE takes every byte string, its row's match being "only step 1
of VALIDATE" (R71); a CMD row asks for its whole word. -/
def operandRow : Instr → Row
  | .reset => ⟨[], []⟩
  | .feedSync => rowFeedSync
  | .feedData _ => rowFeedData
  | .validate _ => ⟨[], []⟩
  | .decodeExtrema _ => rowDecodeExtrema
  | .decodeDual _ => rowDecodeDual
  | .encodeConnect => ⟨wordConnect, List.replicate 9 0xFF⟩
  | .encodeDisconnect => ⟨wordDisconnect, List.replicate 9 0xFF⟩

/-- The rows of the same format and stage listed before the instruction's own. -/
def earlierRows : Instr → List Row
  | .reset => []
  | .feedSync => []
  | .feedData _ => [rowFeedSync]
  | .validate _ => []
  | .decodeExtrema _ => []
  | .decodeDual _ => [rowDecodeExtrema]
  | .encodeConnect => []
  | .encodeDisconnect => [⟨wordConnect, List.replicate 9 0xFF⟩]

/-- The instruction is written in its row's format, and its row is the first that selects its bytes exactly when its
operand is one the row takes. -/
def Statement (i : Instr) : Prop :=
  (encode i).1 = formatOf i ∧
  (i.wellFormed = true ↔ (operandRow i).selects (encode i).2 = true ∧ ∀ r ∈ earlierRows i, r.selects (encode i).2 = false)

theorem and_all (x : Byte) : x &&& 255#8 = x := by revert x; decide
theorem and_capture_set (x : Byte) : (x &&& 32#8 == 32#8) = x.getLsbD 5 := by revert x; decide
theorem and_capture_clear (x : Byte) : (x &&& 32#8 == 0#8) = !x.getLsbD 5 := by revert x; decide

/-- The row `DECODE.EXTREMA` selects the frames with the marker and the capture flag set. -/
theorem rowDecodeExtrema_selects (f : Frame) : rowDecodeExtrema.selects f = (decodeOperand f && captureBit f) := by
  rcases f with _ | ⟨a, _ | ⟨b, _ | ⟨c, _ | ⟨d, _ | ⟨e, _ | ⟨g, l⟩⟩⟩⟩⟩⟩ <;>
    simp [Row.selects, rowDecodeExtrema, matchesBytes, decodeOperand, captureBit, byteAt, sync0_eq, sync1_eq]
  simp only [and_all, and_capture_set]
  simp [Bool.and_assoc]

/-- The row `DECODE.DUAL` selects the frames with the marker and the capture flag clear. -/
theorem rowDecodeDual_selects (f : Frame) : rowDecodeDual.selects f = (decodeOperand f && !captureBit f) := by
  rcases f with _ | ⟨a, _ | ⟨b, _ | ⟨c, _ | ⟨d, _ | ⟨e, _ | ⟨g, l⟩⟩⟩⟩⟩⟩ <;>
    simp [Row.selects, rowDecodeDual, matchesBytes, decodeOperand, captureBit, byteAt, sync0_eq, sync1_eq]
  simp only [and_all, and_capture_clear]
  simp [Bool.and_assoc]

theorem reset : Statement .reset := ⟨rfl, by decide⟩
theorem feedSync : Statement .feedSync := ⟨rfl, by decide⟩
theorem feedData (b : Byte) : Statement (.feedData b) := ⟨rfl, by revert b; decide⟩
theorem validate (f : Frame) : Statement (.validate f) := by
  simp [Statement, Instr.wellFormed, encode, formatOf, operandRow, earlierRows, Row.selects, matchesBytes]
theorem decodeExtrema (f : Frame) : Statement (.decodeExtrema f) := by
  simp [Statement, Instr.wellFormed, encode, formatOf, operandRow, earlierRows, rowDecodeExtrema_selects]
theorem decodeDual (f : Frame) : Statement (.decodeDual f) := by
  cases h : captureBit f <;>
    simp [Statement, Instr.wellFormed, encode, formatOf, operandRow, earlierRows, rowDecodeExtrema_selects,
      rowDecodeDual_selects, h]
theorem encodeConnect : Statement .encodeConnect := ⟨rfl, by decide⟩
theorem encodeDisconnect : Statement .encodeDisconnect := ⟨rfl, by decide⟩

end Sys2Proof.Laws.EncodeMatchesRow
end

