-- ==== Sys2Proof/Laws/Step.lean ====
section
/-! SUPPORT. What a step can do, said once: the rest of a step from each hand-off, and one lemma per kind of event. -/

namespace Sys2Proof.Machine

open Sys2Proof.Safety

/-- Nothing handed on: the step ends. -/
theorem settle_idle (s : State) (h : s.stage = .idle) : settle s = .next s := by
  simp [settle, validateStage, decodeStage, reportStage, h]

/-- The report of a codec result (`44_rx_pipeline.md` R170): what the end of RX makes of it. -/
def reported (f : Frame) (s : State) : State :=
  match codec f with
  | .ok (r, fl) => produceRecord r fl (emit (.cand f) s)
  | .error e => takeError e f (emit (.cand f) s)

/-- A candidate handed on is output, validated, decoded and reported, in one step. -/
theorem settle_candidate (s : State) (f : Frame) (h : s.stage = .candidate f) : settle s = .next (reported f s) := by
  rw [settle, validateStage, h, reported, codec]
  simp only
  cases hv : validate f with
  | error e =>
    rw [exec_validate_error f _ e hv]
    rfl
  | ok u =>
    rw [exec_validate_ok f _ hv, andThen_next, decodeStage]
    simp only
    rw [runDecode_eq]
    cases hd : decodeFields f with
    | error e => rfl
    | ok p => rfl

@[simp] theorem reported_buf (f : Frame) (s : State) : (reported f s).buf = s.buf := by
  unfold reported; split <;> rfl
@[simp] theorem reported_ovf (f : Frame) (s : State) : (reported f s).ovf = s.ovf := by
  unfold reported; split <;> rfl
@[simp] theorem reported_params (f : Frame) (s : State) : (reported f s).params = s.params := by
  unfold reported; split <;> rfl
@[simp] theorem reported_stage (f : Frame) (s : State) : (reported f s).stage = .idle := by
  unfold reported; split <;> rfl
@[simp] theorem reported_now (f : Frame) (s : State) : (reported f s).now = s.now := by
  unfold reported; split <;> rfl
@[simp] theorem reported_inputs (f : Frame) (s : State) : (reported f s).inputs = s.inputs := by
  unfold reported; split <;> rfl

/-- The two reports: a Record, its counter advanced, or an error, the counter as it was. -/
theorem reported_cases (f : Frame) (s : State) :
    (∃ r fl, codec f = .ok (r, fl) ∧ (reported f s).seq = nextSeq s.params s.seq ∧
      (reported f s).outputs = s.outputs ++ [.cand f, .record ⟨sequenceNumber s, s.now, r, fl⟩]) ∨
    (∃ e, codec f = .error e ∧ (reported f s).seq = s.seq ∧
      (reported f s).outputs = s.outputs ++ [.cand f, .err e f]) := by
  cases h : codec f with
  | ok p => exact .inl ⟨p.1, p.2, rfl, by simp [reported, h], by simp [reported, h, sequenceNumber]⟩
  | error e => exact .inr ⟨e, rfl, by simp [reported, h], by simp [reported, h]⟩

theorem step_idle (s : State) (h : s.stage = .idle) (hi : s.inputs = []) : step s = .next s := by
  simp [step, runStep, h, nextEvent, hi]

theorem step_event (s : State) (ev : InputEvent) (rest : List InputEvent) (h : s.stage = .idle)
    (hi : s.inputs = ev :: rest) : step s = handleEvent ev { s with inputs := rest } := by
  simp [step, runStep, h, nextEvent, hi]

/-- A step that starts with something handed on finishes it. -/
theorem step_pending (s : State) (h : s.stage ≠ .idle) : step s = settle s := by
  rcases hs : s.stage <;> first | exact absurd hs h | simp [step, runStep, hs]

theorem handleEvent_faulted (ev : InputEvent) (s : State) (h : s.ovf = true) (he : ev ≠ .reset) :
    handleEvent ev s = .fault .bufferOverflow := by simp [handleEvent, h, he]

theorem handleEvent_reset (s : State) :
    handleEvent .reset s = .next { s with buf := [], seq := 0, ovf := false, stage := .idle } := by
  simp only [handleEvent, ne_eq, not_true_eq_false, and_false, if_false, select, exec, execReset, sampleClock_reset, andThen_next]
  exact settle_idle _ rfl

theorem handleEvent_cmd (c : Command) (s : State) (h : s.ovf = false) (hs : s.stage = .idle) :
    handleEvent (.cmd c) s = .next (encodeCommand c s) := by
  have : exec (select (.cmd c)) (sampleClock (.cmd c) s) = .next (encodeCommand c s) := by cases c <;> rfl
  rw [handleEvent, this]
  simp only [h, Bool.false_eq_true, false_and, if_false, andThen_next]
  exact settle_idle _ hs

theorem handleEvent_rx (b : Byte) (t : Timestamp) (s : State) (h : s.ovf = false) :
    handleEvent (.rx b t) s = .next (if b = sync0 ∧ s.buf ≠ [] then reported s.buf (feed b { s with now := t })
      else feed b { s with now := t }) := by
  have he : exec (select (.rx b t)) (sampleClock (.rx b t) s) = .next (feed b { s with now := t }) := exec_feedInstr b _
  rw [handleEvent, he, if_neg (by simp [h]), andThen_next]
  have hst := feed_stage b { s with now := t }
  by_cases hc : b = sync0 ∧ s.buf ≠ []
  · rw [if_pos hc] at hst ⊢; exact settle_candidate _ _ hst
  · rw [if_neg hc] at hst ⊢; exact settle_idle _ hst

/-- What a step can do from a step boundary, all cases. -/
theorem step_cases (s t : State) (h : s.stage = .idle) (hs : step s = .next t) :
    (s.inputs = [] ∧ t = s) ∨
    (∃ rest, s.inputs = .reset :: rest ∧ t = { s with inputs := rest, buf := [], seq := 0, ovf := false, stage := .idle }) ∨
    (∃ c rest, s.inputs = .cmd c :: rest ∧ s.ovf = false ∧ t = encodeCommand c { s with inputs := rest }) ∨
    (∃ now rest, s.inputs = .rx sync0 now :: rest ∧ s.ovf = false ∧ s.buf ≠ [] ∧
      t = reported s.buf (feed sync0 { s with inputs := rest, now := now })) ∨
    (∃ b now rest, s.inputs = .rx b now :: rest ∧ s.ovf = false ∧ ¬ (b = sync0 ∧ s.buf ≠ []) ∧
      t = feed b { s with inputs := rest, now := now }) := by
  rcases hi : s.inputs with _ | ⟨ev, rest⟩
  · rw [step_idle s h hi] at hs
    exact .inl ⟨rfl, by injection hs with hs; exact hs.symm⟩
  · rw [step_event s ev rest h hi] at hs
    by_cases hr : ev = .reset
    · subst hr
      rw [handleEvent_reset] at hs
      injection hs with hs
      exact .inr (.inl ⟨rest, rfl, hs.symm⟩)
    · by_cases ho : s.ovf = true
      · rw [handleEvent_faulted ev { s with inputs := rest } ho hr] at hs; cases hs
      · rw [Bool.not_eq_true] at ho
        cases ev with
        | reset => exact absurd rfl hr
        | cmd c =>
          rw [handleEvent_cmd c { s with inputs := rest } ho h] at hs
          injection hs with hs
          exact .inr (.inr (.inl ⟨c, rest, rfl, ho, hs.symm⟩))
        | rx b now =>
          rw [handleEvent_rx b now { s with inputs := rest } ho] at hs
          injection hs with hs
          by_cases hc : b = sync0 ∧ s.buf ≠ []
          · obtain ⟨rfl, hb⟩ := hc
            rw [if_pos ⟨rfl, hb⟩] at hs
            exact .inr (.inr (.inr (.inl ⟨now, rest, rfl, ho, hb, hs.symm⟩)))
          · rw [if_neg hc] at hs
            exact .inr (.inr (.inr (.inr ⟨b, now, rest, rfl, ho, hc, hs.symm⟩)))

/-- What a step of a legal block can do from a step boundary, each case with the whole next state. -/
theorem step_inversion (s t : State) (h : s.stage = .idle) (hw : s.params.wf = true) (hs : step s = .next t) :
    (s.inputs = [] ∧ t = s) ∨
    (∃ rest, s.inputs = .reset :: rest ∧ t = { s with inputs := rest, buf := [], seq := 0, ovf := false, stage := .idle }) ∨
    (∃ c rest, s.inputs = .cmd c :: rest ∧ s.ovf = false ∧ t = encodeCommand c { s with inputs := rest }) ∨
    (∃ now rest, s.inputs = .rx sync0 now :: rest ∧ s.ovf = false ∧ s.buf ≠ [] ∧
      t = reported s.buf { s with inputs := rest, now := now, stage := .candidate s.buf, buf := [sync0] }) ∨
    (∃ b now rest, s.inputs = .rx b now :: rest ∧ s.ovf = false ∧ ¬ (b = sync0 ∧ s.buf ≠ []) ∧
      s.params.bufCap ≠ some s.buf.length ∧ t = { s with inputs := rest, now := now, stage := .idle, buf := s.buf ++ [b] }) ∨
    (∃ b now rest, s.inputs = .rx b now :: rest ∧ s.ovf = false ∧ ¬ (b = sync0 ∧ s.buf ≠ []) ∧
      s.params.bufCap = some s.buf.length ∧ t = { s with inputs := rest, now := now, stage := .idle, ovf := true }) := by
  rcases step_cases s t h hs with h0 | h0 | h0 | ⟨now, rest, hi, ho, hb, rfl⟩ | ⟨b, now, rest, hi, ho, hc, rfl⟩
  · exact .inl h0
  · exact .inr (.inl h0)
  · exact .inr (.inr (.inl h0))
  · have := feed_split { s with inputs := rest, now := now } hw hb
    exact .inr (.inr (.inr (.inl ⟨now, rest, hi, ho, hb, by rw [this]⟩)))
  · by_cases hr : s.params.bufCap = some s.buf.length
    · have := feed_overflow b { s with inputs := rest, now := now } hc hr
      exact .inr (.inr (.inr (.inr (.inr ⟨b, now, rest, hi, ho, hc, hr, this⟩))))
    · have := feed_append b { s with inputs := rest, now := now } hc hr
      exact .inr (.inr (.inr (.inr (.inl ⟨b, now, rest, hi, ho, hc, hr, this⟩))))

/-! ### `eraseTimestamp` -/

@[simp] theorem eraseTimestamp_cand (f : Frame) : eraseTimestamp (.cand f) = .cand f := rfl
@[simp] theorem eraseTimestamp_record (r : Record) : eraseTimestamp (.record r) = .record { r with timestamp := ⟨0⟩ } := rfl
@[simp] theorem eraseTimestamp_err (e : DecodeError) (f : Frame) : eraseTimestamp (.err e f) = .err e f := rfl
@[simp] theorem eraseTimestamp_tx (w : Frame) : eraseTimestamp (.tx w) = .tx w := rfl
@[simp] theorem eraseTimestamp_idem (ev : OutputEvent) : eraseTimestamp (eraseTimestamp ev) = eraseTimestamp ev := by
  cases ev <;> rfl

/-! ### Runs -/

/-- One more step of a run. -/
theorem run_succ (n : Nat) (s t : State) (h : step s = .next t) : run (n + 1) s = run n t := by
  simp only [run, Host.Core.run]
  have : core.step s = .next t := h
  rw [this]

theorem run_zero (s : State) : run 0 s = .next s := rfl

/-- A run stops at the first fault. -/
theorem run_succ_fault (n : Nat) (s : State) (r : Fault) (h : step s = .fault r) : run (n + 1) s = .fault r := by
  simp only [run, Host.Core.run]
  have : core.step s = .fault r := h
  rw [this]
  rfl

/-- A run in two parts. -/
theorem run_add (n m : Nat) (s : State) : run (n + m) s = andThen (run n s) (run m) := by
  induction n generalizing s with
  | zero => simp [run_zero]
  | succ n ih =>
    rw [Nat.add_right_comm]
    simp only [run, Host.Core.run]
    cases h : core.step s with
    | next t => exact ih t
    | fault r => rfl
    | refused r => rfl

/-! ### No operation looks at the waiting events -/

theorem feed_withInputs (b : Byte) (s : State) (xs : List InputEvent) :
    feed b { s with inputs := xs } = { feed b s with inputs := xs } := by
  simp only [feed, splitAtSync, appendByte, takeCandidate]
  split_ifs <;> simp_all

theorem reported_withInputs (f : Frame) (s : State) (xs : List InputEvent) :
    reported f { s with inputs := xs } = { reported f s with inputs := xs } := by
  unfold reported; split <;> rfl

/-- Handling one event leaves the waiting events as they are, whatever they are. -/
theorem handleEvent_withInputs (ev : InputEvent) (s : State) (xs : List InputEvent) (h : s.stage = .idle) :
    handleEvent ev { s with inputs := xs } = andThen (handleEvent ev s) (fun t => .next { t with inputs := xs }) := by
  by_cases hr : ev = .reset
  · subst hr; rw [handleEvent_reset, handleEvent_reset]; rfl
  · by_cases ho : s.ovf = true
    · rw [handleEvent_faulted ev { s with inputs := xs } ho hr, handleEvent_faulted ev s ho hr]; rfl
    · rw [Bool.not_eq_true] at ho
      cases ev with
      | reset => exact absurd rfl hr
      | cmd c => rw [handleEvent_cmd c { s with inputs := xs } ho h, handleEvent_cmd c s ho h]; rfl
      | rx b now =>
        rw [handleEvent_rx b now { s with inputs := xs } ho, handleEvent_rx b now s ho]
        have e := feed_withInputs b { s with now := now } xs
        by_cases hc : b = sync0 ∧ s.buf ≠ []
        · simp only [hc, ne_eq, not_false_eq_true, and_self, if_true, andThen_next]
          obtain ⟨rfl, hb⟩ := hc
          rw [e, reported_withInputs]
        · simp only [hc, if_false, andThen_next]
          rw [e]

/-- Handling one event ends at a step boundary, its waiting events untouched. -/
theorem handleEvent_boundary (ev : InputEvent) (s t : State) (h : s.stage = .idle) (hs : handleEvent ev s = .next t) :
    t.stage = .idle ∧ t.inputs = s.inputs := by
  by_cases hr : ev = .reset
  · subst hr; rw [handleEvent_reset] at hs; injection hs with hs; subst hs; exact ⟨rfl, rfl⟩
  · by_cases ho : s.ovf = true
    · rw [handleEvent_faulted ev s ho hr] at hs; cases hs
    · rw [Bool.not_eq_true] at ho
      cases ev with
      | reset => exact absurd rfl hr
      | cmd c => rw [handleEvent_cmd c s ho h] at hs; injection hs with hs; subst hs; exact ⟨h, rfl⟩
      | rx b now =>
        rw [handleEvent_rx b now s ho] at hs
        injection hs with hs
        subst hs
        by_cases hc : b = sync0 ∧ s.buf ≠ []
        · rw [if_pos hc]; simp
        · rw [if_neg hc]
          have := feed_stage b { s with now := now }
          rw [if_neg hc] at this
          exact ⟨this, by simp⟩

/-- A run over some events is the same with others waiting behind them. -/
theorem run_withMoreInputs (xs ys : List InputEvent) (s : State) (h : s.stage = .idle) (hi : s.inputs = xs) :
    run xs.length { s with inputs := xs ++ ys } = andThen (run xs.length s) (fun t => .next { t with inputs := ys }) ∧
      ∀ t, run xs.length s = .next t → t.stage = .idle ∧ t.inputs = [] := by
  induction xs generalizing s with
  | nil =>
    refine ⟨by simp [run_zero], fun t ht => ?_⟩
    rw [List.length_nil, run_zero] at ht
    injection ht with ht
    subst ht
    exact ⟨h, hi⟩
  | cons ev rest ih =>
    have hl : step { s with inputs := ev :: rest ++ ys } = handleEvent ev { s with inputs := rest ++ ys } :=
      step_event { s with inputs := ev :: rest ++ ys } ev (rest ++ ys) h rfl
    have hr : step s = handleEvent ev { s with inputs := rest } := step_event s ev rest h hi
    have e := handleEvent_withInputs ev { s with inputs := rest } (rest ++ ys) h
    rw [List.length_cons]
    cases hs : handleEvent ev { s with inputs := rest } with
    | next t =>
      obtain ⟨ht, hti⟩ := handleEvent_boundary ev { s with inputs := rest } t h hs
      rw [hs, andThen_next] at e
      obtain ⟨i1, i2⟩ := ih t ht hti
      rw [run_succ _ _ _ (hl.trans e), run_succ _ _ _ (hr.trans hs), i1]
      exact ⟨rfl, i2⟩
    | fault r =>
      rw [hs, andThen_fault] at e
      rw [run_succ_fault _ _ _ (hl.trans e), run_succ_fault _ _ _ (hr.trans hs)]
      exact ⟨rfl, fun t ht => by cases ht⟩
    | refused r =>
      exfalso
      by_cases hre : ev = .reset
      · subst hre; rw [handleEvent_reset] at hs; cases hs
      · by_cases ho : s.ovf = true
        · rw [handleEvent_faulted ev { s with inputs := rest } ho hre] at hs; cases hs
        · rw [Bool.not_eq_true] at ho
          cases ev with
          | reset => exact absurd rfl hre
          | cmd c => rw [handleEvent_cmd c { s with inputs := rest } ho h] at hs; cases hs
          | rx b now => rw [handleEvent_rx b now { s with inputs := rest } ho] at hs; cases hs

end Sys2Proof.Machine
end

