-- ==== Sys2Proof/Tests/Slice0.lean ====
section
/-! SUPPORT. The model's own tests: the WellFormed smoke, decoding of words written out from the spec, at most two one-step
tests per operation with results from `95_test_vectors.md`, and for every statement with hypotheses a witness that meets
them together. -/

namespace Sys2Proof.Tests

open Sys2Proof.Machine Sys2Proof.Safety

/-! ### Frames of `95_test_vectors.md` and small states -/

/-- V-D1, a Dual frame of 33 bytes. -/
def frameD1 : Frame :=
  [0xAB, 0xCD, 0x1D, 0x02, 0x00, 0x80, 0x01, 0x00, 0x00, 0x03, 0x00, 0x00, 0xC0, 0x3F, 0x00, 0x6D, 0x56, 0x20, 0x20] ++
  [0x00, 0x00, 0x00, 0x00, 0x00, 0x00, 0x80, 0xBE, 0x6B, 0x7E, 0x20, 0x20, 0x0C, 0x05]

/-- V-D3, a Dual frame of 31 bytes whose second unit overlaps the trailer. -/
def frameD3 : Frame :=
  [0xAB, 0xCD, 0x1B, 0x50, 0x00, 0x00, 0x00, 0x00, 0x00, 0x00, 0x00, 0x00, 0x00, 0x3D, 0x01, 0x41, 0x20, 0x20, 0x20] ++
  [0x00, 0x00, 0x00, 0x00, 0x00, 0x00, 0x00, 0x40, 0x56, 0x20, 0x00, 0x02]

/-- V-E1, an Extrema frame of 48 bytes. -/
def frameE1 : Frame :=
  [0xAB, 0xCD, 0x2C, 0x02, 0x00, 0x20, 0x08, 0x00, 0x00, 0x05, 0x94, 0x87, 0x45, 0x41, 0x01, 0x00, 0x00, 0xC7, 0x42] ++
  [0xEE, 0x10, 0x0E, 0x00, 0x00, 0x00, 0x00, 0x48, 0x42, 0xEE, 0x20, 0x1C, 0x00, 0x00, 0x00, 0x00, 0x80, 0xBF] ++
  [0xEE, 0x41, 0x00, 0x00, 0x00, 0x7E, 0x20, 0x20, 0x20, 0x12, 0x09]

/-- V-E2, an Extrema frame of 45 bytes: one too short. -/
def frameE2 : Frame := [0xAB, 0xCD, 0x29] ++ (frameE1.take 43).drop 3 ++ [0xAF, 0x08]

/-- V-V12: V-D1 with the byte at offset 12 changed. -/
def frameV12 : Frame := frameD1.set 12 0xC1

/-- V-V14 (W1): the connect command without its outer length. -/
def frameEcho : Frame := [0xAB, 0xCD, 0x04, 0x00, 0x05, 0x01, 0x0A, 0x00]

/-- A block between events, with `SEQ_FIRST` 1 and the reference buffer and counter. -/
def blank (buf : Memory) (inputs : List InputEvent) : State :=
  { buf := buf, seq := 0, ovf := false, params := ⟨none, 1, none⟩, stage := .idle, now := ⟨0⟩, inputs := inputs, outputs := [] }

/-- The same with the least finite buffer and a counter of 8 bits. -/
def finite (buf : Memory) (inputs : List InputEvent) : State := { blank buf inputs with params := ⟨some 260, 1, some 8⟩ }

/-- The state an outcome leaves. -/
def after : Host.Outcome State Fault Refusal → Option State
  | .next s => some s
  | _ => none

/-- The hand-off an outcome leaves. -/
def handOff (o : Host.Outcome State Fault Refusal) : Option Stage := (after o).map State.stage

/-- The buffer and the hand-off an outcome leaves. -/
def bufAndHandOff (o : Host.Outcome State Fault Refusal) : Option (Memory × Stage) := (after o).map fun s => (s.buf, s.stage)

/-- The outputs an outcome leaves. -/
def outputsOf (o : Host.Outcome State Fault Refusal) : Option (List OutputEvent) := (after o).map State.outputs

/-! ### WellFormed: an ill-formed term for each check -/

theorem test_wf_feedData_not_sync : (Instr.feedData 0xAB).wellFormed = false := by decide
theorem test_wf_extrema_too_short : (Instr.decodeExtrema [0xAB, 0xCD, 0x01, 0x00, 0x00]).wellFormed = false := by decide
theorem test_wf_extrema_first_byte : (Instr.decodeExtrema [0xAA, 0xCD, 0x02, 0x00, 0x00, 0x20]).wellFormed = false := by decide
theorem test_wf_extrema_second_byte : (Instr.decodeExtrema [0xAB, 0xCC, 0x02, 0x00, 0x00, 0x20]).wellFormed = false := by decide
theorem test_wf_extrema_capture_clear : (Instr.decodeExtrema [0xAB, 0xCD, 0x02, 0x00, 0x00, 0xDF]).wellFormed = false := by decide
theorem test_wf_dual_too_short : (Instr.decodeDual [0xAB, 0xCD, 0x01, 0x00, 0x00]).wellFormed = false := by decide
theorem test_wf_dual_first_byte : (Instr.decodeDual [0xAA, 0xCD, 0x02, 0x00, 0x00, 0x00]).wellFormed = false := by decide
theorem test_wf_dual_second_byte : (Instr.decodeDual [0xAB, 0xCC, 0x02, 0x00, 0x00, 0x00]).wellFormed = false := by decide
theorem test_wf_dual_capture_set : (Instr.decodeDual [0xAB, 0xCD, 0x02, 0x00, 0x00, 0x20]).wellFormed = false := by decide

/-! ### Decoding: words written out from `30_encoding.md` R71 and R156, R157 -/

theorem test_decode_reset : decode .event [] = .ok .reset := by decide
theorem test_decode_feedSync : decode .rxByte [0b10101011] = .ok .feedSync := by decide
theorem test_decode_feedData : decode .rxByte [0b10101010] = .ok (.feedData 0xAA) ∧ decode .rxByte [0b11001101] = .ok (.feedData 0xCD) := by
  decide
theorem test_decode_validate : decode .frame [0xAB, 0xCD, 0x00, 0x00] = .ok (.validate [0xAB, 0xCD, 0x00, 0x00]) := by decide
theorem test_decode_extrema : decode .validated frameE1 = .ok (.decodeExtrema frameE1) ∧
    decode .validated [0xAB, 0xCD, 0x02, 0x00, 0x00, 0b00100000] = .ok (.decodeExtrema [0xAB, 0xCD, 0x02, 0x00, 0x00, 0x20]) := by
  decide
theorem test_decode_dual : decode .validated frameD1 = .ok (.decodeDual frameD1) ∧
    decode .validated [0xAB, 0xCD, 0x02, 0x00, 0x00, 0b11011111] = .ok (.decodeDual [0xAB, 0xCD, 0x02, 0x00, 0x00, 0xDF]) := by
  decide
/-- R156: outer length 8, marker, inner length 4, code 00 05 01, checksum 0x000A low byte first. -/
theorem test_decode_connect :
    decode .cmd [0x08, 0xAB, 0xCD, 0x04, 0x00, 0x05, 0x01, 0x0A, 0x00] = .ok .encodeConnect := by decide
/-- R157: the code ends in 00 and the sum is 9. -/
theorem test_decode_disconnect :
    decode .cmd [0x08, 0xAB, 0xCD, 0x04, 0x00, 0x05, 0x00, 0x09, 0x00] = .ok .encodeDisconnect := by decide
theorem test_decode_rejects : decode .rxByte [] = .error .notOneByte ∧ decode .validated frameEcho.tail = .error .noSyncMarker ∧
    decode .validated (frameEcho.take 5) = .error .noLayoutByte ∧ decode .cmd frameEcho = .error .noSuchCommand ∧
    decode .event [0x00] = .error .eventHasNoBits := by decide

/-! ### One step per operation -/

/-- R220: buf, seq and ovf to their reset values, also out of the faulted state. -/
theorem test_reset_step :
    (after (step { blank [0x11] [.reset] with seq := 7, ovf := true })).map (fun s => (s.buf, s.seq, s.ovf, s.outputs)) =
      some ([], 0, false, []) := by decide

/-- V-F4 and V-F1. -/
theorem test_feedSync_emits : bufAndHandOff (exec .feedSync (blank [0x11, 0x22] [])) = some ([0xAB], .candidate [0x11, 0x22]) ∧
    bufAndHandOff (exec .feedSync (blank [] [])) = some ([0xAB], .idle) := by decide

/-- V-F6 and V-F7: the emission is validated and reported in the same step. -/
theorem test_feedSync_step : outputsOf (step (blank [0xAB] [.rx 0xAB ⟨3⟩])) = some [.cand [0xAB], .err .unrecognizedHeader [0xAB]] ∧
    outputsOf (step (blank [0xAB, 0xCD] [.rx 0xAB ⟨3⟩])) =
      some [.cand [0xAB, 0xCD], .err (.lengthMismatch none (-2)) [0xAB, 0xCD]] := by decide

/-- V-F3 and V-F11. -/
theorem test_feedData_appends : bufAndHandOff (exec (.feedData 0x22) (blank [0x11] [])) = some ([0x11, 0x22], .idle) ∧
    bufAndHandOff (exec (.feedData 0x00) (blank [0xAB] [])) = some ([0xAB, 0x00], .idle) := by decide

/-- The full finite buffer: the byte is dropped, the flag set; the next received byte is a fault. -/
theorem test_feedData_overflows :
    (after (exec (.feedData 0x22) (finite (List.replicate 260 0x11) []))).map (fun s => (s.buf.length, s.ovf)) = some (260, true) ∧
    after (step { finite (List.replicate 260 0x11) [.rx 0xAB ⟨0⟩] with ovf := true }) = none := by decide +kernel

/-- V-V5, V-V12 and V-V4: one failure of each check. -/
theorem test_validate_fails :
    handOff (exec (.validate [0xAB, 0xCD]) (blank [] [])) = some (.failed [0xAB, 0xCD] (.lengthMismatch none (-2))) ∧
    handOff (exec (.validate frameV12) (blank [] [])) = some (.failed frameV12 .checksumMismatch) ∧
    handOff (exec (.validate [0xAB, 0xCE, 0x00, 0x00]) (blank [] [])) = some (.failed [0xAB, 0xCE, 0x00, 0x00] .unrecognizedHeader) := by
  decide

/-- V-V14 and V-V16, the longest frame: sum 65025, no wrap. -/
theorem test_validate_passes : handOff (exec (.validate frameEcho) (blank [] [])) = some (.validated frameEcho) ∧
    validate ([0xAB, 0xCD, 0xFF] ++ List.replicate 254 0xFF ++ [0x01, 0xFE]) = .ok () := by decide +kernel

/-- V-D1. -/
theorem test_decodeDual_D1 : handOff (exec (.decodeDual frameD1) (blank [] [])) = some (.decoded frameD1
    (.dual ⟨0x3FC00000, some 15000⟩ ⟨0x6D, 0x56, 0x20, 0x20⟩ ⟨0xBE800000, some (-2500)⟩ ⟨0x6B, 0x3A9, 0x20, 0x20⟩)
    ⟨3, true, true, false, false, [0x02, 0x00, 0x80, 0x01, 0x00, 0x00, 0x03]⟩) := by decide

/-- V-D3: the second unit runs into the trailer. -/
theorem test_decodeDual_D3 : handOff (exec (.decodeDual frameD3) (blank [] [])) = some (.decoded frameD3
    (.dual ⟨0x3D000000, some 312⟩ ⟨0x41, 0x20, 0x20, 0x20⟩ ⟨0x40000000, some 20000⟩ ⟨0x56, 0x20, 0x00, 0x02⟩)
    ⟨0, false, false, true, false, [0x50, 0x00, 0x00, 0x00, 0x00, 0x00, 0x00]⟩) := by decide

/-- V-E1. -/
theorem test_decodeExtrema_E1 : handOff (exec (.decodeExtrema frameE1) (blank [] [])) = some (.decoded frameE1
    (.extrema ⟨0x41458794, some 123456⟩ ⟨0x3A9, 0x20, 0x20, 0x20⟩ ⟨⟨0x42C70000, some 995000⟩, 3600⟩
      ⟨⟨0x42480000, some 500000⟩, 7200⟩ ⟨⟨0xBF800000, some (-10000)⟩, 65⟩)
    ⟨5, false, false, true, true, [0x02, 0x00, 0x20, 0x08, 0x00, 0x00, 0x05]⟩) := by decide

/-- V-E2: it validates, and offset 45 does not exist. -/
theorem test_decodeExtrema_E2 : validate frameE2 = .ok () ∧
    handOff (exec (.decodeExtrema frameE2) (blank [] [])) = some (.failed frameE2 .malformed) := by decide

/-- V-C1, as a step of the `cmd` event. -/
theorem test_encodeConnect : outputsOf (step (blank [0x11] [.cmd .connect])) =
    some [.tx [0x08, 0xAB, 0xCD, 0x04, 0x00, 0x05, 0x01, 0x0A, 0x00]] := by decide

/-- V-C2. -/
theorem test_encodeDisconnect : outputsOf (step (blank [0x11] [.cmd .disconnect])) =
    some [.tx [0x08, 0xAB, 0xCD, 0x04, 0x00, 0x05, 0x00, 0x09, 0x00]] := by decide

/-- P2's first report: the frame, its Record with `SEQ_FIRST` and the clock of the step, the counter advanced. -/
theorem test_rx_record : (after (step (blank frameD1 [.rx 0xAB ⟨9⟩]))).map (fun s => (s.seq, s.buf, (records s.outputs).map
    fun r => (r.sequence, r.timestamp))) = some (1, [0xAB], [(1, ⟨9⟩)]) := by decide

/-! ### Field functions -/

/-- The UNIT table of `95_test_vectors.md`. -/
theorem test_unit : unitText [0x7E, 0x7E, 0x7E, 0x7E] = some ⟨0x3A9, 0x3A9, 0x3A9, 0x3A9⟩ ∧
    unitText [0x7F, 0x41, 0x42, 0x43] = some ⟨0x7F, 0x41, 0x42, 0x43⟩ ∧ unitText [0x56, 0x00, 0x00, 0x00] = some ⟨0x56, 0, 0, 0⟩ ∧
    unitText [0x6D, 0xB5, 0x20, 0x20] = none ∧ unitText [0x80, 0x20, 0x20, 0x20] = none := by decide

/-- The DEC4 table: ties, rounding up, just under a half, subnormal, zeros. -/
theorem test_dec4_finite : dec4 0x3DC00000 = some 938 ∧ dec4 0x414587E8 = some 123457 ∧ dec4 0x38D1B717 = some 1 ∧
    dec4 0x3851B717 = some 0 ∧ dec4 0xB851B717 = some 0 ∧ dec4 0x3A03126F = some 5 ∧ dec4 0x00000001 = some 0 ∧
    dec4 0x80000000 = some 0 := by decide

/-- The DEC4 table: the largest finite value, infinities, NaN. -/
theorem test_dec4_ends : dec4 0x7F7FFFFF = some 3402823466385288598117041834845169254400000 ∧ dec4 0x7F800000 = none ∧
    dec4 0xFF800000 = none ∧ dec4 0x7FC00000 = none ∧ dec4 0x7F800001 = none := by decide

/-- The memory view of V-F5's buffer. -/
theorem test_memory_cells : Memory.cells [0xAB, 0xCD] = [(0, 0xAB), (1, 0xCD)] ∧ Memory.read [0xAB, 0xCD] 1 = some 0xCD ∧
    Memory.read [0xAB, 0xCD] 2 = none := by decide

/-! ### A table word as the first instruction after reset -/

/-- The rows that an event selects: the buffer, or the outputs, that the step leaves. -/
theorem test_fetch_events : (after (step (State.reset.withFetchWord 0 0))).map State.buf = some [] ∧
    (after (step (State.reset.withFetchWord 8 0xAB))).map State.buf = some [0xAB] ∧
    (after (step (State.reset.withFetchWord 8 0x00))).map State.buf = some [0x00] ∧
    outputsOf (step (State.reset.withFetchWord 72 0x000A01050004CDAB08)) =
      some [.tx [0x08, 0xAB, 0xCD, 0x04, 0x00, 0x05, 0x01, 0x0A, 0x00]] ∧
    outputsOf (step (State.reset.withFetchWord 72 0x000900050004CDAB08)) =
      some [.tx [0x08, 0xAB, 0xCD, 0x04, 0x00, 0x05, 0x00, 0x09, 0x00]] := by decide

/-- The rows that take a frame: VALIDATE's two bytes fail the length check, the DECODE rows' six bytes are too short. -/
theorem test_fetch_frames : outputsOf (step (State.reset.withFetchWord 16 0xCDAB)) =
      some [.cand [0xAB, 0xCD], .err (.lengthMismatch none (-2)) [0xAB, 0xCD]] ∧
    outputsOf (step (State.reset.withFetchWord 48 0x20000000CDAB)) =
      some [.err .malformed [0xAB, 0xCD, 0x00, 0x00, 0x00, 0x20]] ∧
    outputsOf (step (State.reset.withFetchWord 48 0x00000000CDAB)) =
      some [.err .malformed [0xAB, 0xCD, 0x00, 0x00, 0x00, 0x00]] := by decide

/-! ### Witnesses: each statement's hypotheses are met together, every clause at a boundary value

The theorem `witness_<Name>` belongs to `Obligations.<Name>`. -/

theorem witness_DecodeOfEncodeIsTheInstruction : (Instr.feedData 0xAA).wellFormed = true ∧ (Instr.validate []).wellFormed = true ∧
    (Instr.decodeExtrema [0xAB, 0xCD, 0x02, 0x00, 0x00, 0x20]).wellFormed = true ∧
    (Instr.decodeDual [0xAB, 0xCD, 0x02, 0x00, 0x00, 0xDF]).wellFormed = true := by decide

theorem witness_DecodedWordsHaveOneReading : decode .event [] = .ok .reset ∧ decode .rxByte [0xAC] = .ok (.feedData 0xAC) ∧
    decode .validated frameE1 = .ok (.decodeExtrema frameE1) ∧ decode .cmd wordDisconnect = .ok .encodeDisconnect := by decide

theorem witness_StepRunsTheDecodedEvent :
    (∃ s : State, ∃ rest, s.stage = .idle ∧ s.inputs = .rx 0xAB ⟨3⟩ :: rest ∧ s.ovf = false ∧
      decode (eventWord (.rx 0xAB ⟨3⟩)).1 (eventWord (.rx 0xAB ⟨3⟩)).2 = .ok .feedSync) ∧
    (∃ s : State, ∃ rest, s.stage = .idle ∧ s.inputs = InputEvent.reset :: rest ∧ s.ovf = true ∧
      decode (eventWord .reset).1 (eventWord .reset).2 = .ok .reset) :=
  ⟨⟨blank [0x11] [.rx 0xAB ⟨3⟩], [], by decide⟩, ⟨{ blank [0x11] [.reset] with ovf := true }, [], by decide⟩⟩

theorem witness_StepRunsTheHandedFrame :
    ({ blank [] [] with stage := .candidate [0x11] } : State).stage = .candidate [0x11] ∧
    ({ blank [] [] with stage := .validated frameD1 } : State).stage = .validated frameD1 ∧
    decode .validated frameD1 = .ok (.decodeDual frameD1) := by decide

theorem witness_PresentedInstructionRunsNext :
    (blank [0x11] []).stage = .idle ∧ (blank [0x11] []).ovf = false ∧ (Instr.validate [0xAB]).wellFormed = true ∧
    (Instr.decodeDual frameD1).wellFormed = true ∧ (Instr.decodeExtrema frameE1).wellFormed = true ∧
    (Instr.feedData 0x00).wellFormed = true := by decide

theorem witness_IdleWithoutAnEvent : (blank [0xAB] []).stage = .idle ∧ (blank [0xAB] []).inputs = [] := by decide

theorem witness_boundary_reference : BoundaryInv (blank frameD1 [.rx 0xAB ⟨3⟩]) :=
  ⟨by decide, by decide, by decide, by decide, by decide, by intro w h; cases h⟩

theorem witness_boundary_full : BoundaryInv { finite (0xAB :: List.replicate 259 0x11) [.rx 0x22 ⟨3⟩] with seq := 255 } :=
  ⟨by decide +kernel, by decide +kernel, by decide +kernel, by decide +kernel, by decide +kernel, by intro w h; injection h with h; subst h; decide +kernel⟩

theorem witness_StepKeepsTheInvariant : ∃ s t, BoundaryInv s ∧ step s = .next t ∧ t.seq = 1 :=
  ⟨_, _, witness_boundary_reference, rfl, by decide⟩

theorem witness_EveryOperationCompletes : (blank [0xAB] [.rx 0xAB ⟨0⟩]).ovf = false := by decide

theorem witness_OverflowFaultsUntilReset :
    (∃ s : State, ∃ rest, s.stage = .idle ∧ s.ovf = true ∧ s.inputs = .rx 0xAB ⟨0⟩ :: rest ∧ (InputEvent.rx 0xAB ⟨0⟩) ≠ .reset) ∧
    (∃ s : State, ∃ rest, s.stage = .idle ∧ s.ovf = true ∧ s.inputs = InputEvent.reset :: rest) :=
  ⟨⟨{ finite (List.replicate 260 0x11) [.rx 0xAB ⟨0⟩] with ovf := true }, [], by decide⟩,
   ⟨{ finite (List.replicate 260 0x11) [.reset] with ovf := true }, [], by decide⟩⟩

theorem witness_ParametersAreNeverWritten :
    (∃ t, exec .feedSync (blank [0x11] []) = .next t) ∧ (∃ t, step (blank [0x11] [.rx 0xAB ⟨0⟩]) = .next t) := ⟨⟨_, rfl⟩, ⟨_, rfl⟩⟩

theorem witness_OnlyResetUndoes :
    ∃ s t, BoundaryInv s ∧ step s = .next t ∧ s.inputs.head? ≠ some .reset ∧ s.params.seqW = none ∧ s.seq < t.seq :=
  ⟨_, _, witness_boundary_reference, rfl, by decide, rfl, by decide⟩

/-- The buffer and the flag of `OnlyResetUndoes`: a step that ends with an empty buffer, and one that ends faulted. -/
theorem witness_OnlyResetUndoes_buffer :
    (∃ s t, BoundaryInv s ∧ step s = .next t ∧ s.inputs.head? ≠ some .reset ∧ t.buf = []) ∧
    (∃ s t, BoundaryInv s ∧ step s = .next t ∧ s.inputs.head? ≠ some .reset ∧ s.ovf = true) :=
  ⟨⟨blank [] [.cmd .connect], _, ⟨by decide, by decide, by decide, by decide, by decide, by intro w h; cases h⟩, rfl, by decide, rfl⟩,
   ⟨{ finite (0xAB :: List.replicate 259 0x11) [] with ovf := true }, _,
    ⟨by decide +kernel, by decide +kernel, by decide +kernel, by decide +kernel, by decide +kernel, by intro w h; injection h with h; subst h; decide +kernel⟩, rfl, by decide +kernel, rfl⟩⟩

/-- An error report and a Record. -/
theorem witness_OneReportPerCandidate :
    (∃ s t, s.stage = .idle ∧ step s = .next t ∧ newOutputs s t = [.cand [0x11], .err .unrecognizedHeader [0x11]]) ∧
    (∃ s t, s.stage = .idle ∧ step s = .next t ∧ (records (newOutputs s t)).length = 1) :=
  ⟨⟨blank [0x11] [.rx 0xAB ⟨0⟩], _, by decide, rfl, by decide⟩, ⟨blank frameD1 [.rx 0xAB ⟨0⟩], _, by decide, rfl, by decide⟩⟩

theorem witness_SequenceCountsRecords :
    (∃ s t, BoundaryInv s ∧ step s = .next t ∧ s.inputs.head? ≠ some .reset ∧ s.params.seqW = none ∧ t.seq = 1) ∧
    (∃ s t, BoundaryInv s ∧ step s = .next t ∧ s.inputs.head? ≠ some .reset ∧ s.params.seqW = some 8 ∧ s.seq = 255 ∧ t.seq = 0) :=
  ⟨⟨_, _, witness_boundary_reference, rfl, by decide, rfl, by decide⟩,
   ⟨{ finite frameD1 [.rx 0xAB ⟨3⟩] with seq := 255 }, _,
    ⟨by decide, by decide, by decide, by decide, by decide, by intro w h; injection h with h; subst h; decide⟩,
    rfl, by decide, rfl, rfl, by decide⟩⟩

theorem witness_FeedFollowsThePseudocode : (finite (List.replicate 259 0x11) []).params.wf = true ∧ (0xAA : Byte) ≠ 0xAB ∧
    (finite (List.replicate 259 0x11) []).params.bufCap ≠ some (finite (List.replicate 259 0x11) []).buf.length := by decide +kernel

theorem witness_FeedOverflowsAFullBuffer : (finite (List.replicate 260 0x11) []).params.wf = true ∧ (0xAC : Byte) ≠ 0xAB ∧
    (finite (List.replicate 260 0x11) []).params.bufCap = some (finite (List.replicate 260 0x11) []).buf.length := by decide +kernel

theorem witness_FeedLeavesTheRestAlone :
    (∃ t, exec (feedInstr 0xAB) (blank [0x11] []) = .next t ∧ (blank [0x11] []).params.wf = true ∧ (blank [0x11] []).buf ≠ []) ∧
    (∃ t, exec (feedInstr 0x22) { finite [0x11] [] with ovf := true } = .next t ∧
      (finite [0x11] []).params.bufCap ≠ some (finite [0x11] []).buf.length ∧ ¬ ((0x22 : Byte) = 0xAB)) :=
  ⟨⟨_, rfl, by decide, by decide⟩, ⟨_, rfl, by decide, by decide⟩⟩

/-- The hypotheses of the statements over a run of `rx` and `cmd` events. -/
theorem witness_run_hypotheses : (blank [] [.rx 0xAB ⟨0⟩, .cmd .connect, .rx 0xAB ⟨1⟩]).stage = .idle ∧
    (blank [] [.rx 0xAB ⟨0⟩, .cmd .connect, .rx 0xAB ⟨1⟩]).ovf = false ∧
    (blank [] [.rx 0xAB ⟨0⟩, .cmd .connect, .rx 0xAB ⟨1⟩]).params.bufCap = none ∧
    (blank [] [.rx 0xAB ⟨0⟩, .cmd .connect, .rx 0xAB ⟨1⟩]).params.seqW = none ∧
    (blank [] [.rx 0xAB ⟨0⟩, .cmd .connect, .rx 0xAB ⟨1⟩]).buf = [] ∧
    ∀ ev ∈ (blank [] [.rx 0xAB ⟨0⟩, .cmd .connect, .rx 0xAB ⟨1⟩]).inputs, ev ≠ .reset := by decide

theorem witness_EveryByteFedIsAccountedFor : (blank [0x11] [.rx 0xAB ⟨0⟩]).stage = .idle ∧ (blank [0x11] [.rx 0xAB ⟨0⟩]).ovf = false ∧
    (blank [0x11] [.rx 0xAB ⟨0⟩]).params.bufCap = none ∧ ∀ ev ∈ (blank [0x11] [.rx 0xAB ⟨0⟩]).inputs, ev ≠ .reset := by decide

theorem witness_EmissionsCountSyncBytes : ∃ s : State, s.stage = .idle ∧ s.ovf = false ∧ s.params.bufCap = none ∧ s.buf = [] ∧
    (∀ ev ∈ s.inputs, ev ≠ .reset) ∧ (fedBytes s.inputs).head? = some 0xAB :=
  ⟨blank [] [.rx 0xAB ⟨0⟩, .cmd .connect, .rx 0xAB ⟨1⟩], by decide⟩

theorem witness_ChunkingIsInvisible : (blank [0x11] []).stage = .idle ∧ (blank [0x11] []).inputs = [] := by decide

theorem witness_EmittedCandidatesAreSplitPieces :
    ∃ s t f, BoundaryInv s ∧ step s = .next t ∧ f ∈ candidates (newOutputs s t) :=
  ⟨_, _, frameD1, witness_boundary_reference, rfl, by decide⟩

theorem witness_FrameAfterGarbageIsFramed : ∃ (s : State) (garbage f : List (Byte × Timestamp)) (t : Timestamp) (rest : Frame),
    s.stage = .idle ∧ s.ovf = false ∧ s.params.bufCap = none ∧ f.map Prod.fst = 0xAB :: rest ∧ (∀ b ∈ rest, b ≠ 0xAB) ∧
    s.inputs = (garbage ++ f ++ [(0xAB, t)]).map (fun c : Byte × Timestamp => InputEvent.rx c.1 c.2) :=
  ⟨blank [0x33] [.rx 0x11 ⟨0⟩, .rx 0xAB ⟨1⟩, .rx 0xCD ⟨2⟩, .rx 0xAB ⟨3⟩], [(0x11, ⟨0⟩)], [(0xAB, ⟨1⟩), (0xCD, ⟨2⟩)], ⟨3⟩, [0xCD],
    by decide⟩

theorem witness_LengthCheckFailsExactly :
    (2 ≤ ([0xAB, 0xCD] : Frame).length ∧ byteAt [0xAB, 0xCD] 0 = 0xAB ∧ byteAt [0xAB, 0xCD] 1 = 0xCD ∧
      validate [0xAB, 0xCD] = .error (.lengthMismatch none (-2))) ∧
    validate [0xAB, 0xCD, 0x00] = .error (.lengthMismatch (some 0x00) (-1)) ∧
    validate [0xAB, 0xCD, 0xFF, 0x00] = .error (.lengthMismatch (some 0xFF) 0) ∧
    259 < ([0xAB, 0xCD] ++ List.replicate 258 0x11 : Frame).length := by decide +kernel

theorem witness_ChecksumCheckComparesTheTrailer :
    (4 ≤ ([0xAB, 0xCD, 0x00, 0x00] : Frame).length ∧ byteAt [0xAB, 0xCD, 0x00, 0x00] 0 = 0xAB ∧
      byteAt [0xAB, 0xCD, 0x00, 0x00] 1 = 0xCD ∧ (byteAt [0xAB, 0xCD, 0x00, 0x00] 2).toNat = 4 - 4) ∧
    (4 ≤ frameV12.length ∧ byteAt frameV12 0 = 0xAB ∧ byteAt frameV12 1 = 0xCD ∧
      (byteAt frameV12 2).toNat = frameV12.length - 4) := by decide

theorem witness_ValidateHandsOnOrFails : Envelope frameD1 ∧ ¬ Envelope frameV12 :=
  ⟨⟨by decide, by decide, by decide, by decide, by decide⟩, fun h => absurd h.checksum (by decide)⟩

theorem witness_ChecksumIsThePlainSum : ([0x01, 0x02] : Frame).Perm [0x02, 0x01] ∧ headerOk frameD1 = true ∧ lengthOk frameD1 = true := by
  decide

theorem witness_ChecksumNeverWrapsAfterLengthCheck :
    headerOk ([0xAB, 0xCD, 0xFF] ++ List.replicate 254 0xFF ++ [0x01, 0xFE]) = true ∧
    lengthOk ([0xAB, 0xCD, 0xFF] ++ List.replicate 254 0xFF ++ [0x01, 0xFE]) = true := by decide +kernel

theorem witness_DegenerateFramesThatValidate : ([0xAB, 0xCD, 0x00] : Frame).length < 4 ∧
    validate [0xAB, 0xCD, 0x00, 0x00] = .ok () ∧ ([0xAB, 0xCD, 0x00, 0x00] : Frame).length = 4 ∧
    validate [0xAB, 0xCD, 0x01, 0x01, 0x00] = .ok () ∧ ([0xAB, 0xCD, 0x01, 0x01, 0x00] : Frame).length = 5 := by decide

theorem witness_OneChangedByteIsDetected : validate frameD1 = .ok () ∧ frameD1.length = 33 ∧ (0xAA : Byte) ≠ byteAt frameD1 0 ∧
    (0xAA : Byte) ≠ byteAt frameD1 1 ∧ (0xAA : Byte) ≠ byteAt frameD1 2 ∧ (0xAA : Byte) ≠ byteAt frameD1 3 ∧
    (0xAA : Byte) ≠ byteAt frameD1 32 := by decide

theorem witness_HeadOfASplitFrameFails : validate frameD1 = .ok () ∧ 2 < frameD1.length ∧ 3 < frameD1.length ∧
    32 < frameD1.length := by decide

theorem witness_FrameReadIsBounded : 29 + 4 ≤ frameD1.length ∧ frameD1.length < 30 + 4 := by decide

theorem witness_ascii_D1 : AsciiAt frameD1 15 ∧ AsciiAt frameD1 27 := ⟨by unfold AsciiAt; decide, by unfold AsciiAt; decide⟩

theorem witness_DualDecodesOrIsMalformed : (31 ≤ frameD3.length ∧ AsciiAt frameD3 15 ∧ AsciiAt frameD3 27) ∧
    ¬ (31 ≤ (frameD3.take 30).length ∧ AsciiAt (frameD3.take 30) 15 ∧ AsciiAt (frameD3.take 30) 27) ∧
    ¬ AsciiAt (frameD1.set 16 0x80) 15 :=
  ⟨⟨by decide, by unfold AsciiAt; decide, by unfold AsciiAt; decide⟩, fun h => absurd h.1 (by decide), by unfold AsciiAt; decide⟩

theorem witness_ExtremaDecodesOrIsMalformed : (46 ≤ (frameE1.take 46).length ∧ AsciiAt (frameE1.take 46) 42) ∧
    ¬ (46 ≤ (frameE1.take 45).length ∧ AsciiAt (frameE1.take 45) 42) ∧ ¬ AsciiAt (frameE1.set 45 0x80) 42 :=
  ⟨⟨by decide, by unfold AsciiAt; decide⟩, fun h => absurd h.1 (by decide), by unfold AsciiAt; decide⟩

theorem witness_LayoutIsSelectedByOneBit :
    (({ blank [] [] with stage := .validated [0xAB, 0xCD, 0x01, 0x01, 0x00] } : State).stage = .validated [0xAB, 0xCD, 0x01, 0x01, 0x00] ∧
      ([0xAB, 0xCD, 0x01, 0x01, 0x00] : Frame).length < 6) ∧
    (6 ≤ frameD1.length ∧ (byteAt frameD1 5).getLsbD 5 = false ∧
      (decodeFields frameD1).toOption = some (dualAt frameD1, flagsAt frameD1)) ∧
    (6 ≤ frameE1.length ∧ (byteAt frameE1 5).getLsbD 5 = true ∧
      (decodeFields frameE1).toOption = some (extremaAt frameE1, flagsAt frameE1)) ∧
    (6 ≤ frameE2.length ∧ (byteAt frameE2 5).getLsbD 5 = true ∧ frameE2.length < 46) := by decide

theorem witness_StatusFlagsAreTheNamedBits :
    (15 ≤ (frameD1.take 15).length ∧ (frameD1.take 14).length < 15) ∧
    (∃ s t, exec (.decodeDual frameD1) s = .next t ∧ t.stage = .decoded frameD1 (dualAt frameD1) (flagsAt frameD1)) ∧
    (∃ s t, exec (.decodeExtrema frameE1) s = .next t ∧ t.stage = .decoded frameE1 (extremaAt frameE1) (flagsAt frameE1)) :=
  ⟨by decide, ⟨blank [] [], _, rfl, by decide⟩, ⟨blank [] [], _, rfl, by decide⟩⟩

/-- Two different frames that agree everywhere but at offsets 6 and 14. -/
theorem witness_StatusFlagsAreTheNamedBits_pair : frameD1 ≠ (frameD1.set 6 0x09).set 14 0x01 ∧
    frameD1.length = ((frameD1.set 6 0x09).set 14 0x01).length ∧
    ∀ k, k ≠ 6 → k ≠ 14 → byteAt frameD1 k = byteAt ((frameD1.set 6 0x09).set 14 0x01) k := by
  refine ⟨by decide, by decide, ?_⟩
  intro k h6 h14
  simp [byteAt, List.getElem?_set_ne (Ne.symm h6), List.getElem?_set_ne (Ne.symm h14)]

theorem witness_UnitTextSubstitutesOmega : (([0x7F, 0x7E, 0x00, 0x20] : Frame).length = 4 ∧ AsciiAt [0x7F, 0x7E, 0x00, 0x20] 0) ∧
    (([0x20, 0x20, 0x20, 0x80] : Frame).length = 4 ∧ ¬ AsciiAt [0x20, 0x20, 0x20, 0x80] 0) :=
  ⟨⟨by decide, by unfold AsciiAt; decide⟩, ⟨by decide, by unfold AsciiAt; decide⟩⟩

theorem witness_Dec4IsNearestEven : binary32 0x7F800000 = none ∧ binary32 0x3D000000 = some (1 / 32) ∧
    |10000 * (1 / 32 : ℚ) - ((312 : Int) : ℚ)| = 1 / 2 := by
  refine ⟨by unfold binary32; exact if_pos (by decide), ?_, by norm_num [abs_of_nonneg]⟩
  have he : ((0x3D000000 : BitVec 32).extractLsb 30 23).toNat = 122 := by decide
  have hm : ((0x3D000000 : BitVec 32).extractLsb 22 0).toNat = 0 := by decide
  have hs : (0x3D000000 : BitVec 32).getLsbD 31 = false := by decide
  unfold binary32
  rw [he, hm, hs]
  norm_num [zpow_neg]

theorem witness_MalformedExactlyWhen : (decodeFields [0xAB, 0xCD, 0x01, 0x01, 0x00]).isOk = false ∧ (decodeFields frameE2).isOk = false ∧
    (decodeFields frameD1).isOk = true := by decide

theorem witness_UnnamedBytesAreIgnored_dual : frameD1 ≠ frameD1.set 19 0x55 ∧ frameD1.length = (frameD1.set 19 0x55).length ∧
    (∀ k, 3 ≤ k → k ≤ 13 → byteAt frameD1 k = byteAt (frameD1.set 19 0x55) k) ∧
    (byteAt frameD1 14).getLsbD 0 = (byteAt (frameD1.set 19 0x55) 14).getLsbD 0 ∧ (byteAt frameD1 5).getLsbD 5 = false ∧
    (∀ k, 15 ≤ k → k ≤ 18 → byteAt frameD1 k = byteAt (frameD1.set 19 0x55) k) ∧
    (∀ k, 23 ≤ k → k ≤ 30 → byteAt frameD1 k = byteAt (frameD1.set 19 0x55) k) := by
  refine ⟨by decide, by decide, ?_, by decide, by decide, ?_, ?_⟩ <;>
    (intro k h1 h2; simp [byteAt, List.getElem?_set_ne (show 19 ≠ k by omega)])

theorem witness_UnnamedBytesAreIgnored_extrema : frameE1 ≠ frameE1.set 28 0x55 ∧ frameE1.length = (frameE1.set 28 0x55).length ∧
    (∀ k, 3 ≤ k → k ≤ 13 → byteAt frameE1 k = byteAt (frameE1.set 28 0x55) k) ∧
    (byteAt frameE1 14).getLsbD 0 = (byteAt (frameE1.set 28 0x55) 14).getLsbD 0 ∧ (byteAt frameE1 5).getLsbD 5 = true ∧
    (∀ k, 15 ≤ k → k ≤ 45 → k ≠ 19 → k ≠ 28 → k ≠ 37 → byteAt frameE1 k = byteAt (frameE1.set 28 0x55) k) := by
  refine ⟨by decide, by decide, ?_, by decide, by decide, ?_⟩
  · intro k h1 h2; simp [byteAt, List.getElem?_set_ne (show 28 ≠ k by omega)]
  · intro k h1 h2 h3 h4 h5; simp [byteAt, List.getElem?_set_ne (Ne.symm h4)]

/-- No emission, with the last room of the least finite buffer; an emission that fails; an emission that decodes. -/
theorem witness_ReceiveStepFollowsThePipeline :
    (∃ s : State, s.stage = .idle ∧ s.ovf = false ∧ s.inputs = [.rx 0x22 ⟨3⟩] ∧ s.params.wf = true ∧
      ¬ ((0x22 : Byte) = 0xAB ∧ s.buf ≠ []) ∧ s.params.bufCap ≠ some s.buf.length) ∧
    (∃ (s : State) (e : DecodeError), s.stage = .idle ∧ s.ovf = false ∧ s.inputs = [.rx 0xAB ⟨3⟩] ∧ s.params.wf = true ∧
      s.buf ≠ [] ∧ codec s.buf = .error e) ∧
    (∃ (s : State) (r : Reading) (fl : StatusFlags), s.stage = .idle ∧ s.ovf = false ∧ s.inputs = [.rx 0xAB ⟨3⟩] ∧
      s.params.wf = true ∧ s.buf ≠ [] ∧ s.params.seqW = none ∧ codec s.buf = .ok (r, fl)) :=
  ⟨⟨finite (List.replicate 259 0x11) [.rx 0x22 ⟨3⟩], by decide +kernel⟩,
   ⟨blank frameE2 [.rx 0xAB ⟨3⟩], .malformed, by decide, by decide, by decide, by decide, by decide, rfl⟩,
   ⟨blank frameD1 [.rx 0xAB ⟨3⟩], dualAt frameD1, flagsAt frameD1, by decide, by decide, by decide, by decide, by decide,
    by decide, rfl⟩⟩

theorem witness_ReceiveStepWithFiniteParameters :
    (∃ s : State, s.stage = .idle ∧ s.ovf = false ∧ s.inputs = [.rx 0x22 ⟨3⟩] ∧ s.params.wf = true ∧
      ¬ ((0x22 : Byte) = 0xAB ∧ s.buf ≠ []) ∧ s.params.bufCap = some s.buf.length) ∧
    (∃ (s : State) (r : Reading) (fl : StatusFlags), s.stage = .idle ∧ s.ovf = false ∧ s.inputs = [.rx 0xAB ⟨3⟩] ∧
      s.params.wf = true ∧ s.buf ≠ [] ∧ s.params.seqW = some 8 ∧ s.seq = 255 ∧ codec s.buf = .ok (r, fl)) :=
  ⟨⟨finite (List.replicate 260 0x11) [.rx 0x22 ⟨3⟩], by decide +kernel⟩,
   ⟨{ finite frameD1 [.rx 0xAB ⟨3⟩] with seq := 255 }, dualAt frameD1, flagsAt frameD1, by decide, by decide, by decide,
    by decide, by decide, by decide, by decide, rfl⟩⟩

theorem witness_CodecIsValidateThenDecode :
    ({ blank [] [] with stage := .candidate frameD1 } : State).stage = .candidate frameD1 ∧
    validate frameV12 = .error .checksumMismatch ∧
    (validate frameE2 = .ok () ∧ (decodeFields frameE2).toOption = none) ∧
    (validate frameD1 = .ok () ∧ (decodeFields frameD1).toOption = some (dualAt frameD1, flagsAt frameD1)) := by decide

theorem witness_ErrorsArePrecise : ∃ (s : State) (e : DecodeError), s.stage = .idle ∧ s.ovf = false ∧ s.inputs = [.rx 0xAB ⟨3⟩] ∧ s.params.wf = true ∧
    s.buf ≠ [] ∧ codec s.buf = .error e :=
  ⟨blank frameV12 [.rx 0xAB ⟨3⟩], .checksumMismatch, by decide, by decide, by decide, by decide, by decide, rfl⟩

theorem witness_RecordsAreNumberedConsecutively : ∃ s : State, s.stage = .idle ∧ s.ovf = false ∧ s.params.bufCap = none ∧
    s.params.seqW = none ∧ s.inputs ≠ [] ∧ ∀ ev ∈ s.inputs, ev ≠ .reset :=
  ⟨blank frameD1 [.rx 0xAB ⟨0⟩, .cmd .connect], by decide⟩

/-- Different clocks on a frame that decodes, whose run ends in a next state; and a faulted block, whose run stops. -/
theorem witness_TheClockReachesOnlyTimestamps :
    [InputEvent.rx 0xAB ⟨3⟩] ≠ [.rx 0xAB ⟨4⟩] ∧ [InputEvent.rx 0xAB ⟨3⟩].map eventWord = [InputEvent.rx 0xAB ⟨4⟩].map eventWord ∧
    ((blank frameD1 []).stage = .idle ∧ (blank frameD1 []).ovf = false ∧ (blank frameD1 []).params.bufCap = none ∧
      ∃ t, run 1 { blank frameD1 [] with inputs := [.rx 0xAB ⟨3⟩] } = .next t) ∧
    (∃ s : State, s.stage = .idle ∧ run 1 { s with inputs := [.rx 0xAB ⟨3⟩] } = .fault .bufferOverflow) :=
  ⟨by decide, by decide, ⟨by decide, by decide, by decide, _, rfl⟩, ⟨{ finite [] [] with ovf := true }, by decide, rfl⟩⟩

theorem witness_CommandsAndBytesCommute :
    ((finite (List.replicate 260 0x11) []).stage = .idle ∧ (finite (List.replicate 260 0x11) []).ovf = false ∧
      (finite (List.replicate 260 0x11) []).params.wf = true) ∧
    ((finite (List.replicate 259 0x11) []).params.wf = true ∧
      (finite (List.replicate 259 0x11) []).params.bufCap ≠ some (finite (List.replicate 259 0x11) []).buf.length) := by decide +kernel

theorem witness_CodecAndEncoderWriteNoState :
    (∃ t, exec (.validate frameD1) (blank [0x11] []) = .next t) ∧ (∃ t, exec (.decodeExtrema frameE1) (blank [0x11] []) = .next t) ∧
    (∃ t, exec (.decodeDual frameD1) (blank [0x11] []) = .next t) ∧ (∃ t, exec .encodeConnect (blank [0x11] []) = .next t) ∧
    (∃ t, exec .encodeDisconnect (blank [0x11] []) = .next t) := ⟨⟨_, rfl⟩, ⟨_, rfl⟩, ⟨_, rfl⟩, ⟨_, rfl⟩, ⟨_, rfl⟩⟩

end Sys2Proof.Tests
end

section
/-! PROOFS. The statements of `40_framer.md`: what the two FEED rows do, and why the chunks of the transport cannot be
seen. -/

namespace Sys2Proof.Machine

open Sys2Proof.Safety

/-! ### The two FEED rows (R90) -/

theorem exec_feedSync (s : State) : exec .feedSync s = .next (feed sync0 s) := rfl

theorem exec_feedData (b : Byte) (s : State) : exec (.feedData b) s = .next (feed b s) := rfl

/-- 0xAB on an empty buffer of a legal block starts the accumulation and emits nothing. -/
theorem feed_sync_empty (s : State) (hp : s.params.wf = true) (hb : s.buf = []) :
    feed sync0 s = { s with stage := .idle, buf := [sync0] } := by
  have hroom : s.params.bufCap ≠ some s.buf.length := by
    rw [hb]; exact (bufferFull_false_iff _ _).mp (bufferFull_nil _ hp)
  rw [feed_append sync0 s (fun h => h.2 hb) hroom, hb, List.nil_append]

/-- Settles O19: both rows are FEED, whose three cases are `feed_sync_empty`, `feed_split` and `feed_append`. -/
theorem feedFollowsThePseudocode : Obligations.FeedFollowsThePseudocode := by
  intro s hp
  refine ⟨?_, fun b hb hroom => ?_⟩
  · rw [exec_feedSync]
    split_ifs with hbuf
    · rw [feed_sync_empty s hp hbuf, sync0_eq]
    · rw [feed_split s hp hbuf, sync0_eq]
  · rw [exec_feedData, feed_append b s (fun h => hb h.1) hroom]

/-! ### Delivering chunks (R95) -/

/-- A next state, where there is one, stands between two steps with no event waiting. -/
def EndsAtBoundary (o : Host.Outcome State Fault Refusal) : Prop :=
  ∀ t, o = .next t → t.stage = .idle ∧ t.inputs = []

/-- The `rx` events of a chunk, in order. -/
def chunkEvents (chunk : List (Byte × Timestamp)) : List InputEvent := chunk.map fun c => .rx c.1 c.2

@[simp] theorem chunkEvents_length (chunk : List (Byte × Timestamp)) : (chunkEvents chunk).length = chunk.length :=
  List.length_map _

theorem chunkEvents_append (xs ys : List (Byte × Timestamp)) : chunkEvents (xs ++ ys) = chunkEvents xs ++ chunkEvents ys :=
  List.map_append

theorem deliverChunk_next (s : State) (chunk : List (Byte × Timestamp)) :
    deliverChunk (.next s) chunk = run chunk.length { s with inputs := chunkEvents chunk } := rfl

/-- The empty chunk changes nothing. -/
theorem deliverChunk_nil (o : Host.Outcome State Fault Refusal) (h : EndsAtBoundary o) : deliverChunk o [] = o := by
  cases o with
  | next s =>
    obtain ⟨-, hi⟩ := h s rfl
    calc deliverChunk (.next s) [] = .next { s with inputs := [] } := rfl
      _ = .next s := by rw [← hi]
  | fault r => rfl
  | refused r => rfl

/-- A chunk is handled whole: nothing of it is left waiting. -/
theorem deliverChunk_endsAtBoundary (o : Host.Outcome State Fault Refusal) (h : EndsAtBoundary o)
    (chunk : List (Byte × Timestamp)) : EndsAtBoundary (deliverChunk o chunk) := by
  cases o with
  | next s =>
    obtain ⟨hs, -⟩ := h s rfl
    intro t ht
    have hend := (run_withMoreInputs (chunkEvents chunk) [] { s with inputs := chunkEvents chunk } hs rfl).2
    rw [chunkEvents_length] at hend
    exact hend t ht
  | fault r => intro t ht; cases ht
  | refused r => intro t ht; cases ht

/-- Two chunks are one: running the first does not look at the events of the second waiting behind it
(`run_withMoreInputs`). -/
theorem deliverChunk_append (o : Host.Outcome State Fault Refusal) (h : EndsAtBoundary o) (xs ys : List (Byte × Timestamp)) :
    deliverChunk o (xs ++ ys) = deliverChunk (deliverChunk o xs) ys := by
  cases o with
  | next s =>
    obtain ⟨hs, -⟩ := h s rfl
    have hfirst := (run_withMoreInputs (chunkEvents xs) (chunkEvents ys) { s with inputs := chunkEvents xs } hs rfl).1
    rw [chunkEvents_length] at hfirst
    calc deliverChunk (.next s) (xs ++ ys)
        = andThen (run xs.length { s with inputs := chunkEvents xs ++ chunkEvents ys }) (run ys.length) := by
          rw [deliverChunk_next, chunkEvents_append, List.length_append, run_add]
      _ = andThen (andThen (run xs.length { s with inputs := chunkEvents xs })
            fun t => .next { t with inputs := chunkEvents ys }) (run ys.length) := by rw [hfirst]
      _ = deliverChunk (deliverChunk (.next s) xs) ys := andThen_assoc _ _ _
  | fault r => rfl
  | refused r => rfl

/-- Any list of chunks is its concatenation, delivered as one chunk. -/
theorem foldl_deliverChunk (chunks : List (List (Byte × Timestamp))) (o : Host.Outcome State Fault Refusal)
    (h : EndsAtBoundary o) : chunks.foldl deliverChunk o = deliverChunk o chunks.flatten := by
  induction chunks generalizing o with
  | nil => exact (deliverChunk_nil o h).symm
  | cons chunk rest ih =>
    rw [List.foldl_cons, ih _ (deliverChunk_endsAtBoundary o h chunk), List.flatten_cons, deliverChunk_append o h]

/-- Settles O24, by induction on the list of chunks (`foldl_deliverChunk`). -/
theorem chunkingIsInvisible : Obligations.ChunkingIsInvisible := by
  intro s hs hi
  have hstart : EndsAtBoundary (.next s) := by
    intro t ht
    injection ht with ht
    subst ht
    exact ⟨hs, hi⟩
  exact ⟨fun chunks => foldl_deliverChunk chunks _ hstart, deliverChunk_nil _ hstart⟩

end Sys2Proof.Machine
end

section
/-! PROOFS. The statements of `41_validator.md`: the three checks of VALIDATE in their order, what its Ok establishes, and
the checksum as the plain sum of bytes, the same for VALIDATE and ENCODE. -/

namespace Sys2Proof.Machine

open Sys2Proof.Safety

/-! ### The three checks, first failure first (R105) -/

/-- The first check alone decides UnrecognizedHeader: the two later ones have kinds of their own. -/
theorem validate_unrecognizedHeader_iff (f : Frame) :
    validate f = .error .unrecognizedHeader ↔ headerOk f = false := by
  unfold validate
  cases headerOk f
  case false => simp
  case true => cases lengthOk f <;> cases checksumOk f <;> simp

/-- Behind the first two checks only the checksum is left. -/
theorem validate_of_headerOk_lengthOk (f : Frame) (hh : headerOk f = true) (hl : lengthOk f = true) :
    validate f = if checksumOk f = true then .ok () else .error .checksumMismatch := by
  unfold validate
  rw [hh, hl]
  cases checksumOk f <;> rfl

/-- The length check bounds the frame: its length byte counts at most 255. -/
theorem lengthOk_length_le (f : Frame) (h : lengthOk f = true) : f.length ≤ 259 := by
  obtain ⟨-, hlen⟩ := (lengthOk_iff f).mp h
  have hbyte := (byteAt f 2).isLt
  omega

/-- The envelope is the three checks together; its upper bound follows from the length byte. -/
theorem envelope_iff_checks (f : Frame) :
    Envelope f ↔ headerOk f = true ∧ lengthOk f = true ∧ checksumOk f = true := by
  constructor
  · rintro ⟨hleast, -, ⟨h0, h1⟩, hlen, hchk⟩
    have htwo : 2 ≤ f.length := by omega
    exact ⟨(headerOk_iff f).mpr ⟨htwo, h0, h1⟩, (lengthOk_iff f).mpr ⟨hleast, hlen⟩, (checksumOk_iff f htwo).mpr hchk⟩
  · rintro ⟨hheader, hlength, hchecksum⟩
    obtain ⟨htwo, h0, h1⟩ := (headerOk_iff f).mp hheader
    obtain ⟨hleast, hlen⟩ := (lengthOk_iff f).mp hlength
    exact ⟨hleast, lengthOk_length_le f hlength, ⟨h0, h1⟩, hlen, (checksumOk_iff f htwo).mp hchecksum⟩

/-- Settles O29: the header and the length are as the first two checks want them, and the third is `checksumOk_iff`. -/
theorem checksumCheckComparesTheTrailer : Obligations.ChecksumCheckComparesTheTrailer := by
  intro f hleast h0 h1 hlen
  have htwo : 2 ≤ f.length := by omega
  rw [validate_of_headerOk_lengthOk f ((headerOk_iff f).mpr ⟨htwo, h0, h1⟩) ((lengthOk_iff f).mpr ⟨hleast, hlen⟩)]
  simp only [checksumOk_iff f htwo]

/-- Settles O30: Ok and the envelope are the same three checks. -/
theorem validatedExactlyTheEnvelope : Obligations.ValidatedExactlyTheEnvelope := fun f =>
  (validate_ok_iff f).trans (envelope_iff_checks f).symm

/-- Settles O27: UnrecognizedHeader is the failure of the header check, whose three conditions are negated here. -/
theorem headerCheckFailsExactly : Obligations.HeaderCheckFailsExactly := by
  intro f
  rw [validate_unrecognizedHeader_iff, ← Bool.not_eq_true, headerOk_iff, not_and_or, not_and_or, not_le, sync0_eq, sync1_eq]

/-! ### The checksum function (R113) -/

/-- Below 65536 the two bytes say the number. -/
theorem le16_inj (v w : Nat) (hv : v < 65536) (hw : w < 65536) : le16 v = le16 w ↔ v = w := by
  have hbytes := eq_le16_iff (BitVec.ofNat 8 (v % 256)) (BitVec.ofNat 8 (v / 256)) w hw
  rw [show le16 v = [BitVec.ofNat 8 (v % 256), BitVec.ofNat 8 (v / 256)] from rfl, hbytes,
    BitVec.toNat_ofNat, BitVec.toNat_ofNat]
  omega

/-- A byte keeps 8 bits, so the reduction modulo 65536 reaches neither of the two bytes. -/
theorem checksum_eq_bytes (s : Frame) :
    checksum s = [BitVec.ofNat 8 (sumBytes s % 256), BitVec.ofNat 8 (sumBytes s / 256)] := by
  have hlow : sumBytes s % 65536 % 256 = sumBytes s % 256 := by omega
  have hhigh : BitVec.ofNat 8 (sumBytes s % 65536 / 256) = BitVec.ofNat 8 (sumBytes s / 256) := by
    apply BitVec.eq_of_toNat_eq
    rw [BitVec.toNat_ofNat, BitVec.toNat_ofNat]
    omega
  rw [checksum, le16, hlow, hhigh]

theorem checksum_eq_iff (s u : Frame) : checksum s = checksum u ↔ sumBytes s % 65536 = sumBytes u % 65536 :=
  le16_inj _ _ (Nat.mod_lt _ (by norm_num)) (Nat.mod_lt _ (by norm_num))

/-- A sum has no order. -/
theorem sumBytes_perm (s u : Frame) (h : s.Perm u) : sumBytes s = sumBytes u := by
  rw [sumBytes_eq, sumBytes_eq]
  exact (h.map BitVec.toNat).sum_eq

/-! ### The checksum in VALIDATE and in ENCODE -/

theorem checksumOk_iff_trailer (f : Frame) : checksumOk f = true ↔ trailer f = checksum (summedRange f) := beq_iff_eq

/-- Behind the first two checks, Ok is the comparison of the trailer with CHK of the summed range. -/
theorem validate_ok_iff_trailer (f : Frame) (hh : headerOk f = true) (hl : lengthOk f = true) :
    validate f = .ok () ↔ trailer f = checksum (summedRange f) := by
  rw [validate_ok_iff, checksumOk_iff_trailer]
  exact ⟨fun ⟨_, _, hc⟩ => hc, fun hc => ⟨hh, hl, hc⟩⟩

theorem innerBody_eq (c : Command) : innerBody c = 0x04 :: commandCode c := by cases c <;> rfl

theorem length_innerBuffer (c : Command) : (innerBuffer c).length = 6 := by cases c <;> rfl

theorem outboundFrame_tail (c : Command) : (outboundFrame c).drop 1 = innerBuffer c ++ checksum (innerBody c) := rfl

/-- The trailing 2 bytes of a command, behind the outer length and the inner buffer. -/
theorem outboundFrame_trailer (c : Command) : ((outboundFrame c).drop 1).drop 6 = checksum (innerBody c) := by
  rw [outboundFrame_tail, List.drop_left' (length_innerBuffer c)]

/-- What a receiver sums of a command: the inner buffer without its marker. -/
theorem outboundFrame_summed (c : Command) : (((outboundFrame c).drop 1).take 6).drop 2 = innerBody c := by
  rw [outboundFrame_tail, List.take_left' (length_innerBuffer c)]
  rfl

/-- Settles O32, clause by clause: the two bytes, equal sums, no order, VALIDATE's comparison, ENCODE's trailer. -/
theorem checksumIsThePlainSum : Obligations.ChecksumIsThePlainSum := by
  refine ⟨fun s => ?_, fun s u => ?_, fun s u h => ?_, validate_ok_iff_trailer, fun c => ⟨?_, ?_⟩⟩
  · rw [checksum_eq_bytes, sumBytes_eq]
  · rw [checksum_eq_iff, sumBytes_eq, sumBytes_eq]
  · rw [checksum_eq_iff, sumBytes_perm s u h]
  · rw [← innerBody_eq, ← outboundFrame_trailer, List.drop_drop]
  · rw [outboundFrame_summed, outboundFrame_trailer]

end Sys2Proof.Machine
end

section
/-! PROOFS. The statements of `43_command_encoder.md`: what the two ENCODE rows send, and that they send only. -/

namespace Sys2Proof.Machine

/-- The construction of R155 (length, code, checksum, count) arrives at the complete word of the table's row (R71). -/
theorem outboundFrame_eq_commandWord (c : Command) : outboundFrame c = commandWord c := by
  cases c with
  | connect => decide
  | disconnect => decide

theorem exec_encodeInstr (c : Command) (s : State) : exec (encodeInstr c) s = .next (encodeCommand c s) := by
  cases c with
  | connect => rfl
  | disconnect => rfl

/-- ENCODE of a command: its word is sent, and the list of outputs is the one field written. -/
theorem exec_encodeInstr_sends_commandWord (c : Command) (s : State) :
    exec (encodeInstr c) s = .next { s with outputs := s.outputs ++ [.tx (commandWord c)] } := by
  rw [exec_encodeInstr, encodeCommand, outboundFrame_eq_commandWord, emit]

/-- Settles O46: the word of Connect. -/
theorem connectSendsItsFrame : Obligations.ConnectSendsItsFrame :=
  exec_encodeInstr_sends_commandWord .connect

/-- Settles O47: the word of Disconnect. -/
theorem disconnectSendsItsFrame : Obligations.DisconnectSendsItsFrame :=
  exec_encodeInstr_sends_commandWord .disconnect

end Sys2Proof.Machine
end

section
/-! PROOFS. The statements of `44_rx_pipeline.md`: the step of a received byte, which appends it or, in the same step,
reports the frame it pushes out. -/

namespace Sys2Proof.Machine

open Sys2Proof.Safety

/-! ### The two reports as whole states (R170) -/

/-- The `err` arm of RX: two output events, and the hand-off ends. -/
theorem reported_of_codec_error (f : Frame) (s : State) (e : DecodeError) (h : codec f = .error e) :
    reported f s = { s with stage := .idle, outputs := s.outputs ++ [.cand f, .err e f] } := by
  rw [reported, h]
  simp [takeError, emit]

/-- The `rec` arm of RX: two output events, the counter advanced, and the hand-off ends. -/
theorem reported_of_codec_ok (f : Frame) (s : State) (r : Reading) (fl : StatusFlags) (h : codec f = .ok (r, fl)) :
    reported f s = { s with stage := .idle, seq := nextSeq s.params s.seq,
                            outputs := s.outputs ++ [.cand f, .record ⟨s.params.seqFirst + s.seq, s.now, r, fl⟩] } := by
  rw [reported, h]
  simp [produceRecord, emit, sequenceNumber]

theorem nextSeq_unbounded (p : Params) (n : Nat) (h : p.seqW = none) : nextSeq p n = n + 1 := by
  rw [nextSeq, h]

/-! ### The step of a received byte -/

/-- A byte that pushes nothing out and has room is appended, and the step ends. -/
theorem step_rx_append (s : State) (b : Byte) (t : Timestamp) (rest : List InputEvent) (hs : s.stage = .idle)
    (ho : s.ovf = false) (hi : s.inputs = .rx b t :: rest) (hc : ¬ (b = sync0 ∧ s.buf ≠ []))
    (hroom : s.params.bufCap ≠ some s.buf.length) :
    step s = .next { s with inputs := rest, now := t, stage := .idle, buf := s.buf ++ [b] } := by
  rw [step_event s (.rx b t) rest hs hi, handleEvent_rx b t { s with inputs := rest } ho, if_neg hc,
    feed_append b { s with inputs := rest, now := t } hc hroom]

/-- 0xAB on a non-empty buffer: the block in which FEED has handed the buffer on reports that frame, in the same step. -/
theorem step_rx_split (s : State) (t : Timestamp) (rest : List InputEvent) (hs : s.stage = .idle) (ho : s.ovf = false)
    (hi : s.inputs = .rx sync0 t :: rest) (hp : s.params.wf = true) (hb : s.buf ≠ []) :
    step s = .next (reported s.buf
      { s with inputs := rest, now := t, stage := .candidate s.buf, buf := [sync0] }) := by
  rw [step_event s (.rx sync0 t) rest hs hi, handleEvent_rx sync0 t { s with inputs := rest } ho, if_pos ⟨rfl, hb⟩,
    feed_split { s with inputs := rest, now := t } hp hb]

/-- Settles O50, case by case: the append (`step_rx_append`), and behind `step_rx_split` the two reports. -/
theorem receiveStepFollowsThePipeline : Obligations.ReceiveStepFollowsThePipeline := by
  intro s b t rest hs ho hi hp
  refine ⟨fun hc hroom => ?append, fun hsync hb e he => ?failed, fun hsync hb hw r fl hok => ?decoded⟩
  case append => rw [step_rx_append s b t rest hs ho hi hc hroom, hs]
  case failed =>
    subst hsync
    rw [step_rx_split s t rest hs ho hi hp hb, reported_of_codec_error _ _ e he, hs, sync0_eq]
  case decoded =>
    subst hsync
    rw [step_rx_split s t rest hs ho hi hp hb, reported_of_codec_ok _ _ r fl hok, nextSeq_unbounded _ _ hw, hs, sync0_eq]

end Sys2Proof.Machine
end

section
/-! PROOFS. The statement of `60_exceptions.md`: the errors of the codec are precise. -/

namespace Sys2Proof.Machine

open Sys2Proof.Safety

/-! ### The report of an error against the state FEED left (R203) -/

theorem newOutputs_of_append (s t : State) (evs : List OutputEvent) (h : t.outputs = s.outputs ++ evs) :
    newOutputs s t = evs := by
  rw [newOutputs, h, List.drop_left]

theorem records_err_report (f : Frame) (e : DecodeError) : records [.cand f, .err e f] = [] := rfl

/-- The step of a 0xAB that pushes out a frame the codec fails on: the state FEED left, but for the hand-off and the
outputs. -/
theorem step_rx_error (s : State) (t : Timestamp) (rest : List InputEvent) (e : DecodeError) (hs : s.stage = .idle)
    (ho : s.ovf = false) (hi : s.inputs = .rx sync0 t :: rest) (hp : s.params.wf = true) (hb : s.buf ≠ [])
    (he : codec s.buf = .error e) :
    step s = .next { feed sync0 { s with inputs := rest, now := t } with
                     stage := .idle, outputs := s.outputs ++ [.cand s.buf, .err e s.buf] } := by
  rw [step_rx_split s t rest hs ho hi hp hb, reported_of_codec_error _ _ e he,
    feed_split { s with inputs := rest, now := t } hp hb]

/-- Settles O53: by `step_rx_error` the step keeps what FEED left, which is `feed_split`, and its two new events hold no
Record. -/
theorem errorsArePrecise : Obligations.ErrorsArePrecise := by
  intro s t rest e hs ho hi hp hb he
  have hfeed := feed_split { s with inputs := rest, now := t } hp hb
  refine ⟨_, _, exec_feedSync _, step_rx_error s t rest e hs ho hi hp hb he, rfl, ?seq, ?buf, ?outputs⟩
  case seq => exact feed_seq sync0 _
  case buf => exact congrArg State.buf hfeed
  case outputs => rw [newOutputs_of_append s _ _ rfl, records_err_report]

end Sys2Proof.Machine
end

section
/-! PROOFS. The statements of `30_encoding.md`, section 5: the decoder format by format, the encoder as its inverse, and
the instruction a step runs. -/

namespace Sys2Proof.Machine

open Sys2Proof.Safety
open Sys2Proof.Laws.EncodeMatchesRow (rowDecodeExtrema_selects rowDecodeDual_selects)

/-! ### The decoder, format by format (R71) -/

theorem decodeOperand_iff (f : Frame) :
    decodeOperand f = true ↔ 6 ≤ f.length ∧ byteAt f 0 = 0xAB ∧ byteAt f 1 = 0xCD := by
  simp [decodeOperand, sync0_eq, sync1_eq, and_assoc]

/-- The two `DECODE` rows as one: the operand both ask for, then the capture flag. -/
theorem decode_validated (f : Frame) : decode .validated f =
    if decodeOperand f = true then .ok (if captureBit f then .decodeExtrema f else .decodeDual f)
    else .error (if f.length < 6 then .noLayoutByte else .noSyncMarker) := by
  rw [decode, decodeValidated, rowDecodeExtrema_selects, rowDecodeDual_selects]
  cases decodeOperand f
  case true => cases captureBit f <;> rfl
  case false => by_cases h : f.length < 6 <;> simp [h]

theorem rowFeedSync_selects (b : Byte) : rowFeedSync.selects [b] = (b == sync0) := by revert b; decide

theorem rowFeedData_selects (b : Byte) : rowFeedData.selects [b] = true := by revert b; decide

/-- One byte is FEED of that byte. -/
theorem decode_rxByte_byte (b : Byte) : decode .rxByte [b] = .ok (feedInstr b) := by
  rw [decode, decodeRxByte, rowFeedSync_selects, rowFeedData_selects, feedInstr]
  by_cases h : b = sync0 <;> simp [h]

theorem decode_rxByte_of_length_ne (x : Frame) (h : x.length ≠ 1) : decode .rxByte x = .error .notOneByte := by
  rcases x with _ | ⟨b, _ | ⟨c, l⟩⟩
  · rfl
  · exact absurd rfl h
  · rfl

theorem decode_commandWord (c : Command) : decode .cmd (commandWord c) = .ok (encodeInstr c) := by
  cases c <;> decide

theorem decode_cmd_of_ne (x : Frame) (h : ∀ c, x ≠ commandWord c) : decode .cmd x = .error .noSuchCommand := by
  rw [decode, decodeCmd]
  exact (if_neg (h .connect)).trans (if_neg (h .disconnect))

/-- An event's word decodes to the operation the event selects. -/
theorem decode_eventWord (ev : InputEvent) : decode (eventWord ev).1 (eventWord ev).2 = .ok (select ev) := by
  cases ev with
  | reset => rfl
  | rx b t => exact decode_rxByte_byte b
  | cmd c => exact decode_commandWord c

/-! ### The encoder is the decoder's inverse -/

/-- Settles O1, row by row: the operand condition of a row is what the decoder asks of its bytes. -/
theorem decodeOfEncodeIsTheInstruction : Obligations.DecodeOfEncodeIsTheInstruction := by
  intro i hi
  cases i with
  | reset => rfl
  | feedSync => exact decode_rxByte_byte sync0
  | feedData b =>
    have hb : b ≠ sync0 := by simpa [Instr.wellFormed] using hi
    exact (decode_rxByte_byte b).trans (by rw [feedInstr, if_neg hb])
  | validate f => rfl
  | decodeExtrema f =>
    obtain ⟨hop, hcap⟩ : decodeOperand f = true ∧ captureBit f = true := by simpa [Instr.wellFormed] using hi
    exact (decode_validated f).trans (by rw [if_pos hop, if_pos hcap])
  | decodeDual f =>
    obtain ⟨hop, hcap⟩ : decodeOperand f = true ∧ captureBit f = false := by simpa [Instr.wellFormed] using hi
    exact (decode_validated f).trans (by rw [if_pos hop, hcap]; rfl)
  | encodeConnect => exact decode_commandWord .connect
  | encodeDisconnect => exact decode_commandWord .disconnect

theorem feedInstr_wellFormed (b : Byte) : (feedInstr b).wellFormed = true := by
  by_cases h : b = sync0 <;> simp [feedInstr, h, Instr.wellFormed]

theorem encode_feedInstr (b : Byte) : encode (feedInstr b) = (.rxByte, [b]) := by
  by_cases h : b = sync0 <;> simp [feedInstr, h, encode]

theorem encodeInstr_wellFormed (c : Command) : (encodeInstr c).wellFormed = true := by cases c <;> rfl

theorem encode_encodeInstr (c : Command) : encode (encodeInstr c) = (.cmd, commandWord c) := by cases c <;> rfl

/-- Settles O2, format by format: an input that decodes is one byte, a command word, or a frame with the row's operand. -/
theorem decodedWordsHaveOneReading : Obligations.DecodedWordsHaveOneReading := by
  intro fmt x i h
  cases fmt with
  | event =>
    by_cases hx : x = []
    · subst hx
      cases h
      exact ⟨rfl, rfl⟩
    · rw [decode, if_neg hx] at h
      cases h
  | rxByte =>
    by_cases hx : x.length = 1
    · obtain ⟨b, rfl⟩ := List.length_eq_one_iff.mp hx
      rw [decode_rxByte_byte] at h
      cases h
      exact ⟨feedInstr_wellFormed b, encode_feedInstr b⟩
    · rw [decode_rxByte_of_length_ne x hx] at h
      cases h
  | frame =>
    cases h
    exact ⟨rfl, rfl⟩
  | validated =>
    rw [decode_validated] at h
    by_cases hop : decodeOperand x = true
    · rw [if_pos hop] at h
      cases h
      cases hcap : captureBit x <;> exact ⟨by simp [Instr.wellFormed, hop, hcap], rfl⟩
    · rw [if_neg hop] at h
      cases h
  | cmd =>
    by_cases hx : ∃ c, x = commandWord c
    · obtain ⟨c, rfl⟩ := hx
      rw [decode_commandWord] at h
      cases h
      exact ⟨encodeInstr_wellFormed c, encode_encodeInstr c⟩
    · rw [decode_cmd_of_ne x (not_exists.mp hx)] at h
      cases h

/-- Settles O3: each word is its row's bytes, the low byte first. -/
theorem tableWordsDecode : Obligations.TableWordsDecode := by
  unfold Obligations.TableWordsDecode
  decide

/-! ### What each format refuses, and for which reason -/

theorem decode_event_error_iff (x : Frame) (e : DecodeReject) :
    decode .event x = .error e ↔ e = .eventHasNoBits ∧ x ≠ [] := by
  by_cases h : x = [] <;> simp [decode, h, eq_comm]

theorem decode_rxByte_error_iff (x : Frame) (e : DecodeReject) :
    decode .rxByte x = .error e ↔ e = .notOneByte ∧ x.length ≠ 1 := by
  by_cases h : x.length = 1
  · obtain ⟨b, rfl⟩ := List.length_eq_one_iff.mp h
    simp [decode_rxByte_byte]
  · simp [decode_rxByte_of_length_ne x h, h, eq_comm]

theorem decode_cmd_error_iff (x : Frame) (e : DecodeReject) :
    decode .cmd x = .error e ↔ e = .noSuchCommand ∧ x ≠ wordConnect ∧ x ≠ wordDisconnect := by
  by_cases hx : ∃ c, x = commandWord c
  · obtain ⟨c, rfl⟩ := hx
    rw [decode_commandWord]
    cases c <;> simp [commandWord]
  · rw [decode_cmd_of_ne x (not_exists.mp hx)]
    have hne : x ≠ wordConnect ∧ x ≠ wordDisconnect := ⟨fun h => hx ⟨.connect, h⟩, fun h => hx ⟨.disconnect, h⟩⟩
    simp [hne, eq_comm]

theorem decode_validated_error_iff (f : Frame) (e : DecodeReject) : decode .validated f = .error e ↔
    ¬ decodeOperand f = true ∧ e = if f.length < 6 then .noLayoutByte else .noSyncMarker := by
  rw [decode_validated]
  by_cases h : decodeOperand f = true
  · simp [h]
  · simp only [h, if_false, Except.error.injEq, not_false_eq_true, true_and, Bool.false_eq_true]
    exact eq_comm

/-- Settles O4: every clause reads off its format's `decode_…_error_iff`. -/
theorem decoderRejectsExactly : Obligations.DecoderRejectsExactly := by
  refine ⟨fun f => ?_, fun x => ?_, fun f => rfl, fun x => ?_, fun x => ?_, fun f => ?_, fun f => ?_, fun x => ?_, fun x => ?_,
    fun x => ?_⟩
  · simp only [decode_validated_error_iff, exists_and_left, exists_eq, and_true, decodeOperand_iff, not_and_or, not_le]
  · simp [decode_rxByte_error_iff]
  · simp [decode_event_error_iff]
  · simp [decode_cmd_error_iff]
  · rw [decode_validated_error_iff, decodeOperand_iff]
    by_cases h : f.length < 6
    · simp [h, Nat.not_le.mpr h]
    · simp [h]
  · rw [decode_validated_error_iff, decodeOperand_iff]
    by_cases h : f.length < 6
    · simp [h, Nat.not_le.mpr h]
    · simp [h, Nat.not_lt.mp h]
  · simp [decode_rxByte_error_iff]
  · simp [decode_event_error_iff]
  · simp [decode_cmd_error_iff]

/-! ### The instruction a step runs -/

/-- An event that is not refused: its operation, then the rest of the step. -/
theorem handleEvent_eq_exec (ev : InputEvent) (s : State) (h : s.ovf = false ∨ ev = .reset) :
    handleEvent ev s = andThen (exec (select ev) (sampleClock ev s)) settle := by
  refine if_neg ?_
  rintro ⟨ho, hne⟩
  exact h.elim (fun h0 => by simp [ho] at h0) hne

/-- Settles O5: the word decodes to `select ev` (`decode_eventWord`), and only that. -/
theorem stepRunsTheDecodedEvent : Obligations.StepRunsTheDecodedEvent := by
  intro s ev rest i hs hi hev hd
  have hsel : i = select ev := by
    rw [decode_eventWord] at hd
    cases hd
    rfl
  refine ⟨(decodedWordsHaveOneReading _ _ _ hd).1, hsel, ?_⟩
  rw [step_event s ev rest hs hi, handleEvent_eq_exec ev { s with inputs := rest } hev, hsel]

theorem settle_of_candidate (s : State) (f : Frame) (h : s.stage = .candidate f) : settle s =
    andThen (andThen (exec (.validate f) (emit (.cand f) s)) decodeStage) fun t => .next (reportStage t) := by
  rw [settle, validateStage, h]

theorem settle_of_validated (s : State) (f : Frame) (h : s.stage = .validated f) :
    settle s = andThen (runDecode f s) fun t => .next (reportStage t) := by
  rw [settle, validateStage, h, andThen_next, decodeStage, h]

/-- A result of DECODE or an error is only reported. -/
theorem settle_of_decoded (s : State) (f : Frame) (r : Reading) (fl : StatusFlags) (h : s.stage = .decoded f r fl) :
    settle s = .next (reportStage s) := by
  rw [settle, validateStage, h, andThen_next, decodeStage, h, andThen_next]

theorem settle_of_failed (s : State) (f : Frame) (e : DecodeError) (h : s.stage = .failed f e) :
    settle s = .next (reportStage s) := by
  rw [settle, validateStage, h, andThen_next, decodeStage, h, andThen_next]

/-- The layout DECODE selects is the one the decoder's rows select. -/
theorem runDecode_of_decode (f : Frame) (i : Instr) (s : State) (h : decode .validated f = .ok i) :
    runDecode f s = exec i s := by
  rw [decode_validated] at h
  by_cases hop : decodeOperand f = true
  · rw [if_pos hop] at h
    cases h
    rw [runDecode, selectLayout_some f ((decodeOperand_iff f).mp hop).1]
  · rw [if_neg hop] at h
    cases h

theorem step_of_validated (s : State) (f : Frame) (h : s.stage = .validated f) :
    step s = andThen (runDecode f s) fun t => .next (reportStage t) := by
  rw [step_pending s (by rw [h]; exact Stage.noConfusion), settle_of_validated s f h]

/-- Settles O6: a hand-off left open is settled (`step_pending`), from VALIDATE or from DECODE on. -/
theorem stepRunsTheHandedFrame : Obligations.StepRunsTheHandedFrame := by
  refine ⟨fun s f h => ?_, fun s f i h hd => ?_⟩
  · rw [step_pending s (by rw [h]; exact Stage.noConfusion), settle_of_candidate s f h]
  · rw [step_of_validated s f h, runDecode_of_decode f i s hd]

/-! ### The instruction placed by `present` (log entry 3) -/

/-- An event placed in front of the waiting ones is handled by the next step, which takes it off again. -/
theorem step_placed_event (s : State) (ev : InputEvent) (hs : s.stage = .idle) (ho : s.ovf = false) :
    step { s with stage := .idle, inputs := ev :: s.inputs } = andThen (exec (select ev) (sampleClock ev s)) settle := by
  have hplaced : { s with stage := .idle, inputs := ev :: s.inputs } = { s with inputs := ev :: s.inputs } := by rw [← hs]
  rw [hplaced, step_event { s with inputs := ev :: s.inputs } ev s.inputs hs rfl]
  exact handleEvent_eq_exec ev s (.inl ho)

/-- VALIDATE hands on a frame or an error, and the rest of the step is the same whether or not it looks for a candidate
again. -/
theorem settle_after_validate (f : Frame) (s : State) :
    andThen (andThen (exec (.validate f) s) decodeStage) (fun t => .next (reportStage t)) =
      andThen (exec (.validate f) s) settle := by
  cases hv : validate f with
  | ok u =>
    rw [exec_validate_ok f s hv, andThen_next, andThen_next, settle_of_validated _ f rfl]
    rfl
  | error e =>
    rw [exec_validate_error f s e hv, andThen_next, andThen_next, settle_of_failed _ f e rfl]
    rfl

theorem settle_of_deliver (f : Frame) (fl : Option StatusFlags) (r : Option Reading) (s : State) :
    settle (deliver f fl r s) = .next (reportStage (deliver f fl r s)) := by
  cases fl with
  | none => exact settle_of_failed _ f .malformed rfl
  | some fl =>
    cases r with
    | none => exact settle_of_failed _ f .malformed rfl
    | some r => exact settle_of_decoded _ f r fl rfl

/-- Settles O7: five rows are placed as an event (`step_placed_event`), VALIDATE and the `DECODE` rows as the hand-off. -/
theorem presentedInstructionRunsNext : Obligations.PresentedInstructionRunsNext := by
  intro s i hi hs ho
  have hdec := decodeOfEncodeIsTheInstruction i hi
  cases i with
  | reset => exact step_placed_event s .reset hs ho
  | feedSync => exact step_placed_event s (.rx sync0 s.now) hs ho
  | feedData b =>
    have hb : feedInstr b = .feedData b := if_neg (by simpa [Instr.wellFormed] using hi)
    exact (step_placed_event s (.rx b s.now) hs ho).trans (by rw [select, hb]; rfl)
  | validate f =>
    exact (stepRunsTheHandedFrame.1 { s with stage := .candidate f } f rfl).trans (settle_after_validate f _)
  | decodeExtrema f =>
    exact (stepRunsTheHandedFrame.2 { s with stage := .validated f } f _ rfl hdec).trans (settle_of_deliver f _ _ _).symm
  | decodeDual f =>
    exact (stepRunsTheHandedFrame.2 { s with stage := .validated f } f _ rfl hdec).trans (settle_of_deliver f _ _ _).symm
  | encodeConnect => exact step_placed_event s (.cmd .connect) hs ho
  | encodeDisconnect => exact step_placed_event s (.cmd .disconnect) hs ho

end Sys2Proof.Machine
end

section
/-! PROOFS. The statements about the machine as a whole: RESET, the invariant of the step boundary, completion, and what a
step adds to the outputs and to the counter (`10_state.md`, `70_reset_and_hazards.md`, `44_rx_pipeline.md` section 2). -/

namespace Sys2Proof.Machine

open Sys2Proof.Safety

/-! ### RESET and the state after it -/

/-- Settles O8: the step has nothing to finish and no event to take. -/
theorem idleWithoutAnEvent : Obligations.IdleWithoutAnEvent := step_idle

/-- Settles O9: the operation is that one update. -/
theorem resetClearsBufSeqOvf : Obligations.ResetClearsBufSeqOvf := fun _ => rfl

/-- Settles O10, field by field. -/
theorem resetStateValues : Obligations.ResetStateValues := ⟨rfl, rfl, rfl, rfl, rfl, rfl, rfl, rfl⟩

/-- An empty block meets the invariant, whatever its parameters, if they are legal. -/
theorem boundaryInv_of_empty (s : State) (hp : s.params.wf = true) (hs : s.stage = .idle) (hb : s.buf = []) (hq : s.seq = 0)
    (ho : s.ovf = false) : BoundaryInv s where
  params := hp
  idle := hs
  bounded := by rw [hb]; exact memWf_nil _
  split := by simp [hb]
  overflow := by simp [ho]
  counter w _ := by rw [hq]; exact Nat.two_pow_pos w

/-- Settles O11: after reset the block is empty. -/
theorem resetMeetsTheInvariant : Obligations.ResetMeetsTheInvariant := boundaryInv_of_empty _ rfl rfl rfl rfl rfl

/-! ### The invariant of the step boundary -/

theorem nextSeq_bounded (p : Params) (n w : Nat) (h : p.seqW = some w) : nextSeq p n = (n + 1) % 2 ^ w := by
  rw [nextSeq, h]

/-- Only the counter's width is at stake in a report; it is reduced or left alone. -/
theorem reported_seq_lt (f : Frame) (s : State) (w : Nat) (hw : s.params.seqW = some w) (h : s.seq < 2 ^ w) :
    (reported f s).seq < 2 ^ w := by
  rcases reported_cases f s with ⟨r, fl, -, hseq, -⟩ | ⟨e, -, hseq, -⟩
  · rw [hseq, nextSeq_bounded _ _ w hw]
    exact Nat.mod_lt _ (Nat.two_pow_pos w)
  · rwa [hseq]

/-- The report of a candidate leaves the sync byte alone in the buffer, which every legal capacity holds. -/
theorem boundaryInv_reported (f : Frame) (s : State) (hp : s.params.wf = true) (hb : s.buf = [sync0]) (ho : s.ovf = false)
    (hq : ∀ w, s.params.seqW = some w → s.seq < 2 ^ w) : BoundaryInv (reported f s) where
  params := by rw [reported_params]; exact hp
  idle := reported_stage f s
  bounded := by
    rw [reported_params, reported_buf, hb, memWf_iff]
    intro c hc
    have := (params_wf_iff _).mp hp c hc
    simp only [List.length_singleton]
    omega
  split := by simp [hb]
  overflow := by simp [ho]
  counter w hw := by
    rw [reported_params] at hw
    exact reported_seq_lt f s w hw (hq w hw)

/-- A byte that splits nothing off stands behind offset 0 only if it is not 0xAB. -/
theorem tail_append_ne_sync0 (m : Memory) (b : Byte) (hm : ∀ x ∈ m.tail, x ≠ sync0) (hc : ¬ (b = sync0 ∧ m ≠ [])) :
    ∀ x ∈ (m ++ [b]).tail, x ≠ sync0 := by
  cases m with
  | nil => simp
  | cons a l =>
    have hb : b ≠ sync0 := fun h => hc ⟨h, List.cons_ne_nil a l⟩
    intro x hx
    rcases List.mem_append.mp (show x ∈ l ++ [b] from hx) with hx | hx
    · exact hm x hx
    · rwa [List.mem_singleton.mp hx]

theorem memWf_append (p : Params) (m : Memory) (b : Byte) (h : Memory.wf p m = true) (hr : p.bufCap ≠ some m.length) :
    Memory.wf p (m ++ [b]) = true := by
  rw [memWf_iff] at h ⊢
  intro c hc
  have hle := h c hc
  have hne : c ≠ m.length := fun e => hr (e ▸ hc)
  simp only [List.length_append, List.length_singleton]
  omega

/-- Settles O12, over the six cases of `step_inversion`. -/
theorem stepKeepsTheInvariant : Obligations.StepKeepsTheInvariant := by
  intro s t hinv hstep
  obtain ⟨hp, hs, hbd, hsp, hov, hct⟩ := hinv
  rcases step_inversion s t hs hp hstep with ⟨-, rfl⟩ | ⟨rest, -, rfl⟩ | ⟨c, rest, -, -, rfl⟩ | ⟨now, rest, -, ho, -, rfl⟩ |
    ⟨b, now, rest, -, ho, hc, hr, rfl⟩ | ⟨b, now, rest, -, -, -, hr, rfl⟩
  case inl => exact ⟨hp, hs, hbd, hsp, hov, hct⟩
  case inr.inl => exact boundaryInv_of_empty _ hp rfl rfl rfl rfl
  case inr.inr.inl => exact ⟨hp, hs, hbd, hsp, hov, hct⟩
  case inr.inr.inr.inl => exact boundaryInv_reported _ _ hp rfl ho hct
  case inr.inr.inr.inr.inl =>
    exact ⟨hp, rfl, memWf_append _ _ b hbd hr, tail_append_ne_sync0 _ b hsp hc, fun h => by simp [ho] at h, hct⟩
  case inr.inr.inr.inr.inr => exact ⟨hp, rfl, hbd, hsp, fun _ => hr, hct⟩

/-! ### Completion -/

/-- No operation stops the block. -/
theorem exec_completes (i : Instr) (s : State) : ∃ t, exec i s = .next t := by
  cases i with
  | validate f =>
    cases hv : validate f with
    | ok u => exact ⟨_, exec_validate_ok f s hv⟩
    | error e => exact ⟨_, exec_validate_error f s e hv⟩
  | _ => exact ⟨_, rfl⟩

theorem validateStage_completes (s : State) : ∃ t, validateStage s = .next t := by
  unfold validateStage
  split
  · exact exec_completes _ _
  · exact ⟨s, rfl⟩

theorem decodeStage_completes (s : State) : ∃ t, decodeStage s = .next t := by
  unfold decodeStage
  split
  · exact ⟨_, runDecode_eq _ s⟩
  · exact ⟨s, rfl⟩

theorem settle_completes (s : State) : ∃ t, settle s = .next t := by
  obtain ⟨u, hu⟩ := validateStage_completes s
  obtain ⟨v, hv⟩ := decodeStage_completes u
  exact ⟨reportStage v, by rw [settle, hu, andThen_next, hv, andThen_next]⟩

theorem handleEvent_completes (ev : InputEvent) (s : State) (h : s.ovf = false ∨ ev = .reset) :
    ∃ t, handleEvent ev s = .next t := by
  obtain ⟨u, hu⟩ := exec_completes (select ev) (sampleClock ev s)
  rw [handleEvent_eq_exec ev s h, hu, andThen_next]
  exact settle_completes u

/-- The one step that does not complete takes an `rx` or `cmd` event in the faulted state. -/
theorem step_completes_or_faults (s : State) :
    (∃ t, step s = .next t) ∨ (s.ovf = true ∧ step s = .fault .bufferOverflow) := by
  by_cases hs : s.stage = .idle
  · rcases hi : s.inputs with _ | ⟨ev, rest⟩
    · exact .inl ⟨s, step_idle s hs hi⟩
    · rw [step_event s ev rest hs hi]
      by_cases h : s.ovf = false ∨ ev = .reset
      · exact .inl (handleEvent_completes ev { s with inputs := rest } h)
      · obtain ⟨ho, hne⟩ := not_or.mp h
        rw [Bool.not_eq_false] at ho
        exact .inr ⟨ho, handleEvent_faulted ev { s with inputs := rest } ho hne⟩
  · rw [step_pending s hs]
    exact .inl (settle_completes s)

/-- Settles O13: operations by `exec_completes`, steps by `step_completes_or_faults`. -/
theorem everyOperationCompletes : Obligations.EveryOperationCompletes := by
  refine ⟨exec_completes, fun s ho => ?_, step_completes_or_faults⟩
  rcases step_completes_or_faults s with h | ⟨h, -⟩
  · exact h
  · rw [ho] at h
    cases h

/-- Settles O14: the two answers of an event in the faulted state. -/
theorem overflowFaultsUntilReset : Obligations.OverflowFaultsUntilReset := by
  intro s ev rest hs ho hi
  rw [step_event s ev rest hs hi]
  refine ⟨handleEvent_faulted ev { s with inputs := rest } ho, ?_⟩
  rintro rfl
  rw [handleEvent_reset, hs]

/-! ### The parameters -/

theorem andThen_next_inv (o : Host.Outcome State Fault Refusal) (k : State → Host.Outcome State Fault Refusal) (t : State)
    (h : andThen o k = .next t) : ∃ s, o = .next s ∧ k s = .next t := by
  cases o with
  | next s => exact ⟨s, rfl, h⟩
  | fault r => cases h
  | refused r => cases h

theorem exec_params (i : Instr) (s t : State) (h : exec i s = .next t) : t.params = s.params := by
  cases i with
  | reset => cases h; rfl
  | feedSync => cases h; exact feed_params _ s
  | feedData b => cases h; exact feed_params b s
  | validate f =>
    cases hv : validate f with
    | ok u => rw [exec_validate_ok f s hv] at h; cases h; rfl
    | error e => rw [exec_validate_error f s e hv] at h; cases h; rfl
  | decodeExtrema f => cases h; rw [deliver_eq]
  | decodeDual f => cases h; rw [deliver_eq]
  | encodeConnect => cases h; rfl
  | encodeDisconnect => cases h; rfl

theorem validateStage_params (s t : State) (h : validateStage s = .next t) : t.params = s.params := by
  unfold validateStage at h
  split at h
  · exact (exec_params _ _ t h).trans (emit_params _ s)
  · cases h; rfl

theorem decodeStage_params (s t : State) (h : decodeStage s = .next t) : t.params = s.params := by
  unfold decodeStage at h
  split at h
  · rw [runDecode_eq] at h; cases h; rfl
  · cases h; rfl

theorem reportStage_params (s : State) : (reportStage s).params = s.params := by
  unfold reportStage
  split <;> rfl

theorem settle_params (s t : State) (h : settle s = .next t) : t.params = s.params := by
  obtain ⟨v, hv, ht⟩ := andThen_next_inv _ _ t h
  obtain ⟨u, hu, hd⟩ := andThen_next_inv _ _ v hv
  cases ht
  rw [reportStage_params, decodeStage_params u v hd, validateStage_params s u hu]

/-- Settles O15: operation by operation, then through the parts of a step. -/
theorem parametersAreNeverWritten : Obligations.ParametersAreNeverWritten := by
  refine ⟨exec_params, fun s t h => ?_⟩
  by_cases hs : s.stage = .idle
  · rcases step_cases s t hs h with ⟨-, rfl⟩ | ⟨rest, -, rfl⟩ | ⟨c, rest, -, -, rfl⟩ | ⟨now, rest, -, -, -, rfl⟩ |
      ⟨b, now, rest, -, -, -, rfl⟩
    case inl | inr.inl | inr.inr.inl => rfl
    case inr.inr.inr.inl => rw [reported_params, feed_params]
    case inr.inr.inr.inr => rw [feed_params]
  · rw [step_pending s hs] at h
    exact settle_params s t h

/-! ### What a step adds to the outputs and to the counter -/

theorem newOutputs_of_same (s t : State) (h : t.outputs = s.outputs) : newOutputs s t = [] :=
  newOutputs_of_append s t [] (by rw [h, List.append_nil])

theorem records_tx (w : Frame) : records [.tx w] = [] := rfl

theorem records_record_report (f : Frame) (r : Record) : records [.cand f, .record r] = [r] := rfl

theorem candidates_tx (w : Frame) : candidates [.tx w] = [] := rfl

theorem candidates_err_report (f : Frame) (e : DecodeError) : candidates [.cand f, .err e f] = [f] := rfl

theorem candidates_record_report (f : Frame) (r : Record) : candidates [.cand f, .record r] = [f] := rfl

/-- Settles O17: of the five cases of `step_cases` one emits a `tx` and one a candidate with its report. -/
theorem oneReportPerCandidate : Obligations.OneReportPerCandidate := by
  intro s t hs hstep
  suffices h : ∃ evs, t.outputs = s.outputs ++ evs ∧ (evs = [] ∨ (∃ w, evs = [.tx w]) ∨
      (∃ f r, evs = [.cand f, .record r] ∧ codec f = .ok (r.reading, r.flags)) ∨
      (∃ f e, evs = [.cand f, .err e f] ∧ codec f = .error e)) by
    obtain ⟨evs, hout, hcases⟩ := h
    rw [newOutputs_of_append s t evs hout]
    exact ⟨hout, hcases⟩
  rcases step_cases s t hs hstep with ⟨-, rfl⟩ | ⟨rest, -, rfl⟩ | ⟨c, rest, -, -, rfl⟩ | ⟨now, rest, -, -, -, rfl⟩ |
    ⟨b, now, rest, -, -, -, rfl⟩
  case inl | inr.inl => exact ⟨[], (List.append_nil _).symm, .inl rfl⟩
  case inr.inr.inl => exact ⟨[.tx (outboundFrame c)], rfl, .inr (.inl ⟨_, rfl⟩)⟩
  case inr.inr.inr.inl =>
    rcases reported_cases s.buf (feed sync0 { s with inputs := rest, now := now }) with
      ⟨r, fl, hok, -, hout⟩ | ⟨e, herr, -, hout⟩
    · rw [feed_outputs] at hout
      exact ⟨_, hout, .inr (.inr (.inl ⟨_, _, rfl, hok⟩))⟩
    · rw [feed_outputs] at hout
      exact ⟨_, hout, .inr (.inr (.inr ⟨_, _, rfl, herr⟩))⟩
  case inr.inr.inr.inr => exact ⟨[], by rw [feed_outputs, List.append_nil], .inl rfl⟩

/-- The counter of a step that is no RESET: as it was, with no Record, or advanced, with one. -/
theorem step_seq_cases (s t : State) (hs : s.stage = .idle) (hstep : step s = .next t) (hne : s.inputs.head? ≠ some .reset) :
    (t.seq = s.seq ∧ records (newOutputs s t) = []) ∨
      (t.seq = nextSeq s.params s.seq ∧ ∃ r, records (newOutputs s t) = [r]) := by
  rcases step_cases s t hs hstep with ⟨-, rfl⟩ | ⟨rest, hi, rfl⟩ | ⟨c, rest, -, -, rfl⟩ | ⟨now, rest, -, -, -, rfl⟩ |
    ⟨b, now, rest, -, -, -, rfl⟩
  case inl => exact .inl ⟨rfl, by rw [newOutputs_of_same _ _ rfl]; rfl⟩
  case inr.inl => exact absurd (by rw [hi]; rfl) hne
  case inr.inr.inl => exact .inl ⟨rfl, by rw [newOutputs_of_append s _ [.tx (outboundFrame c)] rfl, records_tx]⟩
  case inr.inr.inr.inl =>
    rcases reported_cases s.buf (feed sync0 { s with inputs := rest, now := now }) with
      ⟨r, fl, -, hseq, hout⟩ | ⟨e, -, hseq, hout⟩
    · rw [feed_outputs] at hout
      rw [feed_seq, feed_params] at hseq
      exact .inr ⟨hseq, _, by rw [newOutputs_of_append s _ _ hout, records_record_report]⟩
    · rw [feed_outputs] at hout
      rw [feed_seq] at hseq
      exact .inl ⟨hseq, by rw [newOutputs_of_append s _ _ hout, records_err_report]⟩
  case inr.inr.inr.inr =>
    have hout := feed_outputs b { s with inputs := rest, now := now }
    exact .inl ⟨feed_seq _ _, by rw [newOutputs_of_same s _ hout]; rfl⟩

/-- Settles O18: by `step_seq_cases` a step emits one Record or none, and the counter moves with it. -/
theorem sequenceCountsRecords : Obligations.SequenceCountsRecords := by
  intro s t hinv hstep hne
  rcases step_seq_cases s t hinv.idle hstep hne with ⟨hseq, hrec⟩ | ⟨hseq, r, hrec⟩
  · rw [hseq, hrec, List.length_nil, Nat.add_zero]
    exact ⟨fun _ => rfl, fun w hw => (Nat.mod_eq_of_lt (hinv.counter w hw)).symm⟩
  · rw [hseq, hrec, List.length_singleton]
    exact ⟨nextSeq_unbounded _ _, nextSeq_bounded _ _⟩

/-- Settles O16: of the cases of `step_inversion` only RESET empties the buffer or clears the flag, and `step_seq_cases`
never lowers the counter. -/
theorem onlyResetUndoes : Obligations.OnlyResetUndoes := by
  intro s t hinv hstep hne
  have hseq : s.params.seqW = none → s.seq ≤ t.seq := by
    intro hw
    rcases step_seq_cases s t hinv.idle hstep hne with ⟨h, -⟩ | ⟨h, -⟩
    · exact h.ge
    · rw [h, nextSeq_unbounded _ _ hw]
      exact Nat.le_succ _
  have hbufovf : (t.buf = [] → s.buf = []) ∧ (s.ovf = true → t.ovf = true) := by
    rcases step_inversion s t hinv.idle hinv.params hstep with ⟨-, rfl⟩ | ⟨rest, hi, rfl⟩ | ⟨c, rest, -, -, rfl⟩ |
      ⟨now, rest, -, ho, -, rfl⟩ | ⟨b, now, rest, -, ho, -, -, rfl⟩ | ⟨b, now, rest, -, -, -, -, rfl⟩
    case inl | inr.inr.inl => exact ⟨id, id⟩
    case inr.inl => exact absurd (by rw [hi]; rfl) hne
    case inr.inr.inr.inl => simp [ho]
    case inr.inr.inr.inr.inl => simp [ho]
    case inr.inr.inr.inr.inr => exact ⟨id, fun _ => rfl⟩
  exact ⟨hbufovf.1, hseq, hbufovf.2⟩

end Sys2Proof.Machine
end

section
/-! PROOFS. The statements of `40_framer.md` about one FEED: the full buffer, the frame of the operation, and what an emitted
candidate is. -/

namespace Sys2Proof.Machine

open Sys2Proof.Safety

/-- A buffer at a legal finite capacity is not empty. -/
theorem ne_nil_of_full (s : State) (hp : s.params.wf = true) (hfull : s.params.bufCap = some s.buf.length) : s.buf ≠ [] := by
  intro h
  have := (params_wf_iff _).mp hp _ hfull
  rw [h, List.length_nil] at this
  omega

/-- Settles O20: `feed_overflow` and `feed_split`, the latter because a full buffer is not empty. -/
theorem feedOverflowsAFullBuffer : Obligations.FeedOverflowsAFullBuffer := by
  intro s hp hfull
  refine ⟨fun b hb => ?_, ?_⟩
  · rw [exec_feedData, feed_overflow b s (fun h => hb h.1) hfull]
  · rw [exec_feedSync, feed_split s hp (ne_nil_of_full s hp hfull), sync0_eq]

theorem splitAtSync_buf (b : Byte) (s : State) :
    (splitAtSync b s).buf = if b = sync0 ∧ s.buf ≠ [] then [] else s.buf := by
  unfold splitAtSync
  split <;> rfl

/-- FEED appends the byte to what the split left, or, without room for it, drops it and sets the flag. -/
theorem feed_buf_ovf (b : Byte) (s : State) :
    ((feed b s).buf = (splitAtSync b s).buf ++ [b] ∧ (feed b s).ovf = s.ovf) ∨
      (bufferFull s.params (splitAtSync b s).buf = true ∧ (feed b s).buf = (splitAtSync b s).buf ∧ (feed b s).ovf = true) := by
  by_cases hfull : bufferFull s.params (splitAtSync b s).buf = true
  · have hf : feed b s = { splitAtSync b s with ovf := true } := appendByte_full b _ (by rwa [splitAtSync_params])
    exact .inr ⟨hfull, by rw [hf], by rw [hf]⟩
  · have hf : feed b s = { splitAtSync b s with buf := (splitAtSync b s).buf ++ [b] } :=
      appendByte_room b _ (by rwa [splitAtSync_params, ← Bool.not_eq_true])
    exact .inl ⟨by rw [hf], by rw [hf]; exact splitAtSync_ovf b s⟩

theorem feed_ovf_of_set (b : Byte) (s : State) (h : s.ovf = true) : (feed b s).ovf = true := by
  rcases feed_buf_ovf b s with ⟨-, ho⟩ | ⟨-, -, ho⟩
  · rw [ho, h]
  · exact ho

/-- 0xAB that splits nothing off meets an empty buffer, which has room. -/
theorem room_of_no_split (b : Byte) (s : State) (hp : s.params.wf = true) (hc : ¬ (b = sync0 ∧ s.buf ≠ []))
    (hroom : b = sync0 ∨ s.params.bufCap ≠ some s.buf.length) : s.params.bufCap ≠ some s.buf.length := by
  rcases hroom with rfl | hroom
  · have hb : s.buf = [] := not_not.mp fun hb => hc ⟨rfl, hb⟩
    rw [hb]
    exact (bufferFull_false_iff _ _).mp (bufferFull_nil _ hp)
  · exact hroom

/-- With room for the byte, behind the split or without one, the flag is as it was. -/
theorem feed_ovf_of_room (b : Byte) (s : State) (hp : s.params.wf = true)
    (hroom : b = sync0 ∨ s.params.bufCap ≠ some s.buf.length) : (feed b s).ovf = s.ovf := by
  by_cases hc : b = sync0 ∧ s.buf ≠ []
  · obtain ⟨rfl, hb⟩ := hc
    rw [feed_split s hp hb]
  · rw [feed_append b s hc (room_of_no_split b s hp hc hroom)]

/-- Without a split, only the offset behind the data can change. -/
theorem feed_memRead_other (b : Byte) (s : State) (hc : ¬ (b = sync0 ∧ s.buf ≠ [])) (a : Nat) (ha : a ≠ s.buf.length) :
    Memory.read (feed b s).buf a = Memory.read s.buf a := by
  have hbase : (splitAtSync b s).buf = s.buf := by rw [splitAtSync_buf, if_neg hc]
  rcases feed_buf_ovf b s with ⟨hb, -⟩ | ⟨-, hb, -⟩
  · rw [hb, hbase, memRead_append_other _ b a ha]
  · rw [hb, hbase]

/-- Behind a split the buffer holds at most the byte fed. -/
theorem feed_memRead_behind_split (b : Byte) (s : State) (hc : b = sync0 ∧ s.buf ≠ []) (a : Nat) (ha : a ≠ 0) :
    Memory.read (feed b s).buf a = none := by
  have hbase : (splitAtSync b s).buf = [] := by rw [splitAtSync_buf, if_pos hc]
  rcases feed_buf_ovf b s with ⟨hb, -⟩ | ⟨-, hb, -⟩
  · rw [hb, hbase, memRead_append_other [] b a ha]
    rfl
  · rw [hb, hbase]
    rfl

/-- Settles O21: both rows are `feed`, whose frame the lemmas above say field by field. -/
theorem feedLeavesTheRestAlone : Obligations.FeedLeavesTheRestAlone := by
  intro s t b h
  rw [exec_feedInstr] at h
  cases h
  exact ⟨feed_seq b s, feed_params b s, feed_now b s, feed_inputs b s, feed_outputs b s, feed_ovf_of_set b s,
    feed_ovf_of_room b s, feed_memRead_other b s, feed_memRead_behind_split b s⟩

/-- The candidate in a report is the frame reported. -/
theorem mem_candidates_reported (f g : Frame) (s u : State) (hout : u.outputs = s.outputs)
    (hg : g ∈ candidates (newOutputs s (reported f u))) : g = f := by
  rcases reported_cases f u with ⟨r, fl, -, -, h⟩ | ⟨e, -, -, h⟩
  · rw [newOutputs_of_append s _ _ (hout ▸ h), candidates_record_report] at hg
    exact List.mem_singleton.mp hg
  · rw [newOutputs_of_append s _ _ (hout ▸ h), candidates_err_report] at hg
    exact List.mem_singleton.mp hg

theorem not_mem_candidates_of_same (f : Frame) (s t : State) (h : t.outputs = s.outputs) :
    f ∉ candidates (newOutputs s t) := by
  rw [newOutputs_of_same s t h]
  exact List.not_mem_nil

/-- Settles O25: of the cases of `step_inversion` only the split emits a candidate. -/
theorem emittedCandidatesAreSplitPieces : Obligations.EmittedCandidatesAreSplitPieces := by
  intro s t f hinv hstep hf
  rcases step_inversion s t hinv.idle hinv.params hstep with ⟨-, rfl⟩ | ⟨rest, -, rfl⟩ | ⟨c, rest, -, -, rfl⟩ |
    ⟨now, rest, -, -, hb, rfl⟩ | ⟨b, now, rest, -, -, -, -, rfl⟩ | ⟨b, now, rest, -, -, -, -, rfl⟩
  case inr.inr.inr.inl =>
    have hfb := mem_candidates_reported s.buf f s
      { s with inputs := rest, now := now, stage := .candidate s.buf, buf := [sync0] } rfl hf
    subst hfb
    exact ⟨rfl, hb, hinv.split, reported_buf _ _⟩
  case inr.inr.inl =>
    rw [newOutputs_of_append s _ [.tx (outboundFrame c)] rfl, candidates_tx] at hf
    cases hf
  all_goals exact absurd hf (not_mem_candidates_of_same f _ _ rfl)

end Sys2Proof.Machine
end

section
/-! PROOFS. Runs over the waiting events: where every byte has room a run is a fold over its events, and the statements about
the candidates, the buffer and the Records of a run are inductions over that fold (`10_state.md` R30(d), `40_framer.md` R97,
`44_rx_pipeline.md` R171, `70_reset_and_hazards.md` section 3). -/

namespace Sys2Proof.Machine

open Sys2Proof.Safety

/-! ### One event that has room -/

/-- What handling an event makes of the state where its byte, if it is one, has room. -/
def handled (ev : InputEvent) (s : State) : State :=
  match ev with
  | .reset => { s with buf := [], seq := 0, ovf := false, stage := .idle }
  | .cmd c => encodeCommand c s
  | .rx b t =>
    if b = sync0 ∧ s.buf ≠ [] then reported s.buf { s with now := t, buf := [sync0] }
    else { s with now := t, buf := s.buf ++ [b] }

/-- The byte of the event does not overflow the buffer. -/
def HasRoom (s : State) : InputEvent → Prop
  | .rx b _ => b = sync0 ∨ s.params.bufCap ≠ some s.buf.length
  | _ => True

theorem handled_split (t : Timestamp) (s : State) (hb : s.buf ≠ []) :
    handled (.rx sync0 t) s = reported s.buf { s with now := t, buf := [sync0] } := if_pos ⟨rfl, hb⟩

theorem handled_append (b : Byte) (t : Timestamp) (s : State) (hc : ¬ (b = sync0 ∧ s.buf ≠ [])) :
    handled (.rx b t) s = { s with now := t, buf := s.buf ++ [b] } := if_neg hc

/-- The hand-off a report starts from does not show in it. -/
theorem reported_withStage (f : Frame) (s : State) (g : Stage) : reported f { s with stage := g } = reported f s := by
  unfold reported
  split <;> rfl

theorem handleEvent_handled (ev : InputEvent) (s : State) (hs : s.stage = .idle) (ho : s.ovf = false)
    (hp : s.params.wf = true) (hroom : HasRoom s ev) : handleEvent ev s = .next (handled ev s) := by
  cases ev with
  | reset => exact handleEvent_reset s
  | cmd c => exact handleEvent_cmd c s ho hs
  | rx b t =>
    rw [handleEvent_rx b t s ho]
    by_cases hc : b = sync0 ∧ s.buf ≠ []
    · obtain ⟨rfl, hb⟩ := hc
      rw [if_pos ⟨rfl, hb⟩, handled_split t s hb, feed_split { s with now := t } hp hb]
      exact congrArg _ (reported_withStage _ { s with now := t, buf := [sync0] } _)
    · rw [if_neg hc, handled_append b t s hc,
        feed_append b { s with now := t } hc (room_of_no_split b s hp hc hroom), ← hs]

theorem handled_withInputs (ev : InputEvent) (s : State) (xs : List InputEvent) :
    handled ev { s with inputs := xs } = { handled ev s with inputs := xs } := by
  cases ev with
  | reset => rfl
  | cmd c => rfl
  | rx b t =>
    by_cases hc : b = sync0 ∧ s.buf ≠ []
    · obtain ⟨rfl, hb⟩ := hc
      rw [handled_split t s hb, handled_split t { s with inputs := xs } hb]
      exact reported_withInputs s.buf { s with now := t, buf := [sync0] } xs
    · rw [handled_append b t s hc, handled_append b t { s with inputs := xs } hc]

/-- The step that takes such an event. -/
theorem step_handled (ev : InputEvent) (rest : List InputEvent) (s : State) (hs : s.stage = .idle) (ho : s.ovf = false)
    (hp : s.params.wf = true) (hroom : HasRoom s ev) :
    step { s with inputs := ev :: rest } = .next { handled ev s with inputs := rest } := by
  rw [step_event { s with inputs := ev :: rest } ev rest hs rfl,
    handleEvent_handled ev { s with inputs := rest } hs ho hp (by cases ev <;> exact hroom), handled_withInputs]

/-! ### What one event leaves as it was, and what it emits -/

theorem handled_params (ev : InputEvent) (s : State) : (handled ev s).params = s.params := by
  cases ev with
  | reset => rfl
  | cmd c => rfl
  | rx b t =>
    rw [handled]
    split
    · exact reported_params _ _
    · rfl

theorem handled_stage (ev : InputEvent) (s : State) (hs : s.stage = .idle) : (handled ev s).stage = .idle := by
  cases ev with
  | reset => rfl
  | cmd c => exact hs
  | rx b t =>
    rw [handled]
    split
    · exact reported_stage _ _
    · exact hs

theorem handled_ovf (ev : InputEvent) (s : State) (ho : s.ovf = false) : (handled ev s).ovf = false := by
  cases ev with
  | reset => rfl
  | cmd c => exact ho
  | rx b t =>
    rw [handled]
    split
    · exact (reported_ovf _ _).trans ho
    · exact ho

/-- The buffer behind one more byte: 0xAB starts it anew, every other byte is appended. -/
def pushByte (m : Memory) (b : Byte) : Memory := if b = sync0 then [sync0] else m ++ [b]

theorem handled_rx_buf (b : Byte) (t : Timestamp) (s : State) : (handled (.rx b t) s).buf = pushByte s.buf b := by
  by_cases hc : b = sync0 ∧ s.buf ≠ []
  · obtain ⟨rfl, hb⟩ := hc
    rw [handled_split t s hb, reported_buf, pushByte, if_pos rfl]
  · rw [handled_append b t s hc, pushByte]
    split
    case isTrue h =>
      have hb : s.buf = [] := not_not.mp fun hb => hc ⟨h, hb⟩
      rw [h, hb, List.nil_append]
    case isFalse => rfl

theorem newOutputs_handled_cmd (c : Command) (s : State) : newOutputs s (handled (.cmd c) s) = [.tx (outboundFrame c)] :=
  newOutputs_of_append _ _ _ rfl

theorem newOutputs_handled_append (b : Byte) (t : Timestamp) (s : State) (hc : ¬ (b = sync0 ∧ s.buf ≠ [])) :
    newOutputs s (handled (.rx b t) s) = [] :=
  newOutputs_of_same _ _ (by rw [handled_append b t s hc])

/-- The report of a split: a Record, its counter advanced and its clock that of the event, or an error. -/
theorem handled_split_cases (t : Timestamp) (s : State) (hb : s.buf ≠ []) :
    (∃ r fl, codec s.buf = .ok (r, fl) ∧ (handled (.rx sync0 t) s).seq = nextSeq s.params s.seq ∧
      (handled (.rx sync0 t) s).outputs = s.outputs ++ [.cand s.buf, .record ⟨s.params.seqFirst + s.seq, t, r, fl⟩]) ∨
    (∃ e, codec s.buf = .error e ∧ (handled (.rx sync0 t) s).seq = s.seq ∧
      (handled (.rx sync0 t) s).outputs = s.outputs ++ [.cand s.buf, .err e s.buf]) := by
  rw [handled_split t s hb]
  exact reported_cases s.buf { s with now := t, buf := [sync0] }

theorem handled_outputs (ev : InputEvent) (s : State) :
    (handled ev s).outputs = s.outputs ++ newOutputs s (handled ev s) := by
  suffices h : ∃ evs, (handled ev s).outputs = s.outputs ++ evs by
    obtain ⟨evs, h⟩ := h
    rw [newOutputs_of_append _ _ _ h, h]
  cases ev with
  | reset => exact ⟨[], (List.append_nil _).symm⟩
  | cmd c => exact ⟨[.tx (outboundFrame c)], rfl⟩
  | rx b t =>
    by_cases hc : b = sync0 ∧ s.buf ≠ []
    · obtain ⟨rfl, hb⟩ := hc
      rcases handled_split_cases t s hb with ⟨r, fl, -, -, h⟩ | ⟨e, -, -, h⟩ <;> exact ⟨_, h⟩
    · exact ⟨[], by rw [handled_append b t s hc, List.append_nil]⟩

/-- Exactly a split emits a candidate, the whole buffer. -/
theorem candidates_handled_rx (b : Byte) (t : Timestamp) (s : State) :
    candidates (newOutputs s (handled (.rx b t) s)) = if b = sync0 ∧ s.buf ≠ [] then [s.buf] else [] := by
  split
  case isTrue hc =>
    obtain ⟨rfl, hb⟩ := hc
    rcases handled_split_cases t s hb with ⟨r, fl, -, -, h⟩ | ⟨e, -, -, h⟩
    · rw [newOutputs_of_append _ _ _ h, candidates_record_report]
    · rw [newOutputs_of_append _ _ _ h, candidates_err_report]
  case isFalse hc =>
    rw [newOutputs_handled_append b t s hc]
    rfl

/-! ### A run as a fold -/

/-- The state behind some events that all have room. -/
def runEnd (s : State) (evs : List InputEvent) : State := evs.foldl (fun u ev => handled ev u) s

theorem runEnd_cons (s : State) (ev : InputEvent) (evs : List InputEvent) :
    runEnd s (ev :: evs) = runEnd (handled ev s) evs := rfl

theorem runEnd_concat (s : State) (evs : List InputEvent) (ev : InputEvent) :
    runEnd s (evs ++ [ev]) = handled ev (runEnd s evs) := List.foldl_concat ..

/-- An unbounded buffer always has room, so the whole run is the fold. -/
theorem run_unbounded (evs : List InputEvent) (s : State) (hs : s.stage = .idle) (ho : s.ovf = false)
    (hcap : s.params.bufCap = none) : run evs.length { s with inputs := evs } = .next { runEnd s evs with inputs := [] } := by
  induction evs generalizing s with
  | nil => rfl
  | cons ev evs ih =>
    have hp : s.params.wf = true := by rw [Params.wf, hcap]
    have hroom : HasRoom s ev := by
      cases ev with
      | rx b t => exact .inr (by rw [hcap]; exact nofun)
      | _ => trivial
    rw [List.length_cons, run_succ _ _ _ (step_handled ev evs s hs ho hp hroom), runEnd_cons]
    exact ih _ (handled_stage ev s hs) (handled_ovf ev s ho) (by rw [handled_params, hcap])

theorem runEnd_outputs (evs : List InputEvent) (s : State) :
    (runEnd s evs).outputs = s.outputs ++ newOutputs s (runEnd s evs) := by
  suffices h : ∃ out, (runEnd s evs).outputs = s.outputs ++ out by
    obtain ⟨out, h⟩ := h
    rw [newOutputs_of_append _ _ _ h, h]
  induction evs generalizing s with
  | nil => exact ⟨[], (List.append_nil _).symm⟩
  | cons ev evs ih =>
    obtain ⟨out, h⟩ := ih (handled ev s)
    exact ⟨_, by rw [runEnd_cons, h, handled_outputs, List.append_assoc]⟩

theorem newOutputs_runEnd_nil (s : State) : newOutputs s (runEnd s []) = [] := newOutputs_of_same s s rfl

theorem newOutputs_runEnd_cons (s : State) (ev : InputEvent) (evs : List InputEvent) :
    newOutputs s (runEnd s (ev :: evs)) =
      newOutputs s (handled ev s) ++ newOutputs (handled ev s) (runEnd (handled ev s) evs) :=
  newOutputs_of_append _ _ _ (by rw [runEnd_cons, runEnd_outputs evs, handled_outputs, List.append_assoc])

theorem candidates_append (xs ys : List OutputEvent) : candidates (xs ++ ys) = candidates xs ++ candidates ys :=
  List.filterMap_append

theorem records_append (xs ys : List OutputEvent) : records (xs ++ ys) = records xs ++ records ys := List.filterMap_append

theorem fedBytes_rx (b : Byte) (t : Timestamp) (evs : List InputEvent) : fedBytes (.rx b t :: evs) = b :: fedBytes evs := rfl

theorem fedBytes_cmd (c : Command) (evs : List InputEvent) : fedBytes (.cmd c :: evs) = fedBytes evs := rfl

/-! ### Candidates and buffer of a run -/

/-- Without RESET, the candidates and then the buffer are the old buffer and then the bytes fed. -/
theorem run_accounts_for_bytes (evs : List InputEvent) (s : State) (hne : ∀ ev ∈ evs, ev ≠ .reset) :
    (candidates (newOutputs s (runEnd s evs))).flatten ++ (runEnd s evs).buf = s.buf ++ fedBytes evs := by
  induction evs generalizing s with
  | nil =>
    rw [newOutputs_runEnd_nil]
    exact (List.append_nil _).symm
  | cons ev evs ih =>
    obtain ⟨hev, hrest⟩ := List.forall_mem_cons.mp hne
    rw [newOutputs_runEnd_cons, candidates_append, List.flatten_append, List.append_assoc, runEnd_cons, ih _ hrest]
    cases ev with
    | reset => exact absurd rfl hev
    | cmd c =>
      rw [newOutputs_handled_cmd, candidates_tx, fedBytes_cmd]
      rfl
    | rx b t =>
      rw [candidates_handled_rx, handled_rx_buf, fedBytes_rx, pushByte]
      by_cases hb : b = sync0 <;> by_cases hbuf : s.buf = [] <;> simp [hb, hbuf]

/-- Settles O22: the run is `runEnd`, and `run_accounts_for_bytes` is the invariant. -/
theorem everyByteFedIsAccountedFor : Obligations.EveryByteFedIsAccountedFor := by
  intro s hs ho hcap hne
  exact ⟨_, run_unbounded s.inputs s hs ho hcap, rfl, runEnd_outputs s.inputs s, run_accounts_for_bytes s.inputs s hne⟩

/-- Every 0xAB splits a candidate off, but for a first one that meets an empty buffer. -/
theorem run_counts_candidates (evs : List InputEvent) (s : State) (hne : ∀ ev ∈ evs, ev ≠ .reset) :
    (candidates (newOutputs s (runEnd s evs))).length +
      (if s.buf = [] ∧ (fedBytes evs).head? = some sync0 then 1 else 0) = (fedBytes evs).count sync0 := by
  induction evs generalizing s with
  | nil =>
    rw [newOutputs_runEnd_nil]
    simp [candidates, fedBytes]
  | cons ev evs ih =>
    obtain ⟨hev, hrest⟩ := List.forall_mem_cons.mp hne
    have hih := ih (handled ev s) hrest
    rw [newOutputs_runEnd_cons, candidates_append, List.length_append]
    cases ev with
    | reset => exact absurd rfl hev
    | cmd c =>
      rw [newOutputs_handled_cmd, candidates_tx, fedBytes_cmd, List.length_nil, Nat.zero_add]
      exact hih
    | rx b t =>
      have hbuf : (handled (.rx b t) s).buf ≠ [] := by
        rw [handled_rx_buf, pushByte]
        split <;> simp
      rw [if_neg (fun h => hbuf h.1), Nat.add_zero] at hih
      rw [hih, candidates_handled_rx, fedBytes_rx, List.head?_cons, List.count_cons]
      by_cases hb : b = sync0
      · by_cases he : s.buf = [] <;> simp [hb, he, Nat.add_comm]
      · simp [hb]

/-- Settles O23: `run_counts_candidates` from an empty buffer. -/
theorem emissionsCountSyncBytes : Obligations.EmissionsCountSyncBytes := by
  intro s hs ho hcap hbuf hne
  refine ⟨_, run_unbounded s.inputs s hs ho hcap, Nat.eq_sub_of_add_eq ?_⟩
  have hcount := run_counts_candidates s.inputs s hne
  simp only [hbuf, true_and, sync0_eq] at hcount
  exact hcount

/-! ### A frame behind garbage -/

/-- Without RESET the buffer depends on the bytes fed alone. -/
theorem runEnd_buf (evs : List InputEvent) (s : State) (hne : ∀ ev ∈ evs, ev ≠ .reset) :
    (runEnd s evs).buf = (fedBytes evs).foldl pushByte s.buf := by
  induction evs generalizing s with
  | nil => rfl
  | cons ev evs ih =>
    obtain ⟨hev, hrest⟩ := List.forall_mem_cons.mp hne
    rw [runEnd_cons, ih _ hrest]
    cases ev with
    | reset => exact absurd rfl hev
    | cmd c => rfl
    | rx b t => rw [handled_rx_buf, fedBytes_rx, List.foldl_cons]

theorem foldl_pushByte_of_ne (m : Memory) (bs : Frame) (h : ∀ b ∈ bs, b ≠ sync0) : bs.foldl pushByte m = m ++ bs := by
  induction bs generalizing m with
  | nil => exact (List.append_nil m).symm
  | cons b bs ih =>
    obtain ⟨hb, hbs⟩ := List.forall_mem_cons.mp h
    rw [List.foldl_cons, ih _ hbs, pushByte, if_neg hb, List.append_assoc, List.singleton_append]

/-- Whatever came before, the buffer behind 0xAB and bytes other than 0xAB is those bytes. -/
theorem foldl_pushByte_frame (m : Memory) (garbage rest : Frame) (h : ∀ b ∈ rest, b ≠ sync0) :
    (garbage ++ sync0 :: rest).foldl pushByte m = sync0 :: rest := by
  rw [List.foldl_append, List.foldl_cons, pushByte, if_pos rfl, foldl_pushByte_of_ne _ _ h, List.singleton_append]

theorem fedBytes_chunkEvents (chunk : List (Byte × Timestamp)) : fedBytes (chunkEvents chunk) = chunk.map Prod.fst := by
  induction chunk with
  | nil => rfl
  | cons c chunk ih => exact congrArg _ ih

theorem chunkEvents_ne_reset (chunk : List (Byte × Timestamp)) : ∀ ev ∈ chunkEvents chunk, ev ≠ .reset := by
  intro ev hev
  obtain ⟨c, -, rfl⟩ := List.mem_map.mp hev
  exact InputEvent.noConfusion

/-- Settles O26: the bytes before the last 0xAB leave exactly the frame in the buffer, and the last one pushes it out. -/
theorem frameAfterGarbageIsFramed : Obligations.FrameAfterGarbageIsFramed := by
  intro s garbage f t rest hs ho hcap hf hrest hin
  have hinputs : s.inputs = chunkEvents (garbage ++ f) ++ [.rx sync0 t] := by
    rw [hin]
    exact List.map_append
  have hbuf : (runEnd s (chunkEvents (garbage ++ f))).buf = sync0 :: rest := by
    rw [runEnd_buf _ s (chunkEvents_ne_reset _), fedBytes_chunkEvents, List.map_append, hf]
    exact foldl_pushByte_frame _ _ _ hrest
  have hend : runEnd s s.inputs = handled (.rx sync0 t) (runEnd s (chunkEvents (garbage ++ f))) := by
    rw [hinputs, runEnd_concat]
  refine ⟨_, (runEnd s (chunkEvents (garbage ++ f))).outputs, run_unbounded s.inputs s hs ho hcap, ?_, ?_⟩
  · calc (runEnd s s.inputs).buf = pushByte (runEnd s (chunkEvents (garbage ++ f))).buf sync0 := by rw [hend, handled_rx_buf]
      _ = [0xAB] := rfl
  · have hcases := handled_split_cases t (runEnd s (chunkEvents (garbage ++ f))) (by rw [hbuf]; exact List.cons_ne_nil _ _)
    rw [hbuf, ← hend] at hcases
    rcases hcases with ⟨r, fl, hok, -, hout⟩ | ⟨e, herr, -, hout⟩
    · exact .inr ⟨r, fl, _, hok, hout⟩
    · exact .inl ⟨e, herr, hout⟩

/-! ### The Records of a run -/

/-- One event that is no RESET: the counter advances by its Records, which carry the numbers from `SEQ_FIRST + seq` on. -/
theorem handled_numbers_records (ev : InputEvent) (s : State) (hw : s.params.seqW = none) (hev : ev ≠ .reset) :
    (handled ev s).seq = s.seq + (records (newOutputs s (handled ev s))).length ∧
    (records (newOutputs s (handled ev s))).map Record.sequence =
      List.range' (s.params.seqFirst + s.seq) (records (newOutputs s (handled ev s))).length := by
  cases ev with
  | reset => exact absurd rfl hev
  | cmd c =>
    rw [newOutputs_handled_cmd]
    exact ⟨rfl, rfl⟩
  | rx b t =>
    by_cases hc : b = sync0 ∧ s.buf ≠ []
    · obtain ⟨rfl, hb⟩ := hc
      rcases handled_split_cases t s hb with ⟨r, fl, -, hseq, hout⟩ | ⟨e, -, hseq, hout⟩
      · rw [newOutputs_of_append _ _ _ hout, records_record_report, hseq, nextSeq_unbounded _ _ hw]
        exact ⟨rfl, rfl⟩
      · rw [newOutputs_of_append _ _ _ hout, records_err_report, hseq]
        exact ⟨rfl, rfl⟩
    · rw [newOutputs_handled_append b t s hc, handled_append b t s hc]
      exact ⟨rfl, rfl⟩

/-- The same over any run without RESET. -/
theorem run_numbers_records (evs : List InputEvent) (s : State) (hw : s.params.seqW = none)
    (hne : ∀ ev ∈ evs, ev ≠ .reset) :
    (runEnd s evs).seq = s.seq + (records (newOutputs s (runEnd s evs))).length ∧
    (records (newOutputs s (runEnd s evs))).map Record.sequence =
      List.range' (s.params.seqFirst + s.seq) (records (newOutputs s (runEnd s evs))).length := by
  induction evs generalizing s with
  | nil =>
    rw [newOutputs_runEnd_nil]
    exact ⟨rfl, rfl⟩
  | cons ev evs ih =>
    obtain ⟨hev, hrest⟩ := List.forall_mem_cons.mp hne
    obtain ⟨hseq, hnum⟩ := handled_numbers_records ev s hw hev
    obtain ⟨hseq', hnum'⟩ := ih (handled ev s) (by rw [handled_params, hw]) hrest
    rw [newOutputs_runEnd_cons, records_append, List.length_append, List.map_append, runEnd_cons, hnum, hnum', hseq', hseq,
      handled_params, ← Nat.add_assoc, ← Nat.add_assoc, List.range'_append_1]
    exact ⟨rfl, rfl⟩

/-- Settles O55: `run_numbers_records`, the numbers written from 0 up. -/
theorem recordsAreNumberedConsecutively : Obligations.RecordsAreNumberedConsecutively := by
  intro s hs ho hcap hw hne
  obtain ⟨hseq, hnum⟩ := run_numbers_records s.inputs s hw hne
  exact ⟨_, run_unbounded s.inputs s hs ho hcap, hseq, hnum.trans List.range'_eq_map_range⟩

/-! ### A command beside a received byte -/

/-- What a received byte does does not depend on the outputs already there. -/
theorem handled_rx_withOutputs (b : Byte) (t : Timestamp) (s : State) (out : List OutputEvent) :
    handled (.rx b t) { s with outputs := out } =
      { handled (.rx b t) s with outputs := out ++ newOutputs s (handled (.rx b t) s) } := by
  by_cases hc : b = sync0 ∧ s.buf ≠ []
  · obtain ⟨rfl, hb⟩ := hc
    rw [handled_split t s hb, handled_split t { s with outputs := out } hb]
    cases hcodec : codec s.buf with
    | ok p =>
      rw [reported_of_codec_ok _ _ p.1 p.2 hcodec, reported_of_codec_ok _ _ p.1 p.2 hcodec,
        newOutputs_of_append s _ _ rfl]
    | error e =>
      rw [reported_of_codec_error _ _ e hcodec, reported_of_codec_error _ _ e hcodec, newOutputs_of_append s _ _ rfl]
  · rw [newOutputs_handled_append b t s hc, handled_append b t s hc, handled_append b t { s with outputs := out } hc,
      List.append_nil]

theorem receiveSide_handled_rx (b : Byte) (t : Timestamp) (s : State) :
    receiveSide (newOutputs s (handled (.rx b t) s)) = newOutputs s (handled (.rx b t) s) := by
  by_cases hc : b = sync0 ∧ s.buf ≠ []
  · obtain ⟨rfl, hb⟩ := hc
    rcases handled_split_cases t s hb with ⟨r, fl, -, -, h⟩ | ⟨e, -, -, h⟩ <;> rw [newOutputs_of_append _ _ _ h] <;> rfl
  · rw [newOutputs_handled_append b t s hc]
    rfl

/-- A run over two events that have room. -/
theorem run_two (ev ev' : InputEvent) (s : State) (hs : s.stage = .idle) (ho : s.ovf = false) (hp : s.params.wf = true)
    (hroom : HasRoom s ev) (hroom' : HasRoom (handled ev s) ev') :
    run 2 { s with inputs := [ev, ev'] } = .next { handled ev' (handled ev s) with inputs := [] } := by
  rw [run_succ 1 _ _ (step_handled ev [ev'] s hs ho hp hroom), run_succ 0 _ _ (step_handled ev' [] (handled ev s)
    (handled_stage ev s hs) (handled_ovf ev s ho) (by rw [handled_params, hp]) hroom'), run_zero]

/-- Settles O57: a command only appends its `tx`, and `handled_rx_withOutputs` says that the byte does not see it. -/
theorem commandsAndBytesCommute : Obligations.CommandsAndBytesCommute := by
  intro s c b t hs ho hp hroom
  have hu : handled (.rx b t) (handled (.cmd c) s) = { handled (.rx b t) s with
      outputs := (s.outputs ++ [.tx (outboundFrame c)]) ++ newOutputs s (handled (.rx b t) s) } :=
    handled_rx_withOutputs b t s _
  have hnu : newOutputs s (handled (.rx b t) (handled (.cmd c) s)) =
      .tx (outboundFrame c) :: newOutputs s (handled (.rx b t) s) :=
    newOutputs_of_append s _ _ (by rw [hu, List.append_assoc, List.singleton_append])
  have hnv : newOutputs s (handled (.cmd c) (handled (.rx b t) s)) =
      newOutputs s (handled (.rx b t) s) ++ [.tx (outboundFrame c)] :=
    newOutputs_of_append s _ _ (by rw [← List.append_assoc, ← handled_outputs]; rfl)
  have hsu : receiveSide (newOutputs s (handled (.rx b t) (handled (.cmd c) s))) = newOutputs s (handled (.rx b t) s) := by
    rw [hnu]
    exact receiveSide_handled_rx b t s
  have hsv : receiveSide (newOutputs s (handled (.cmd c) (handled (.rx b t) s))) = newOutputs s (handled (.rx b t) s) := by
    rw [hnv, receiveSide, List.filter_append, ← receiveSide, receiveSide_handled_rx]
    exact List.append_nil _
  refine ⟨_, _, outboundFrame c, run_two (.cmd c) (.rx b t) s hs ho hp trivial hroom,
    run_two (.rx b t) (.cmd c) s hs ho hp hroom trivial, ?_, ?_, ?_, hsu.trans hsv.symm,
    hnu.trans (congrArg _ hsu.symm), hnv.trans (congrArg (· ++ _) hsv.symm)⟩
  all_goals rw [hu]; rfl

end Sys2Proof.Machine
end

section
/-! PROOFS. The clock reaches only timestamps (`44_rx_pipeline.md` R172): two runs of any block that differ in their clock
values alone are compared by their states with the clock erased. -/

namespace Sys2Proof.Machine

open Sys2Proof.Safety

/-- The state without the clock: its sampled value and the timestamps of the Records replaced by one fixed token, the
events still waiting, which carry clock values too, left out. -/
def eraseClock (s : State) : State := { s with now := ⟨0⟩, inputs := [], outputs := s.outputs.map eraseTimestamp }

/-- The event with the fixed token as its clock value. -/
def stopClock : InputEvent → InputEvent
  | .reset => .reset
  | .rx b _ => .rx b ⟨0⟩
  | .cmd c => .cmd c

/-- An outcome without the clock. -/
def eraseOutcome (o : Host.Outcome State Fault Refusal) : Host.Outcome State Fault Refusal :=
  andThen o fun t => .next (eraseClock t)

theorem map_eraseTimestamp_idem (evs : List OutputEvent) :
    (evs.map eraseTimestamp).map eraseTimestamp = evs.map eraseTimestamp := by
  rw [List.map_map]
  exact List.map_congr_left fun ev _ => eraseTimestamp_idem ev

theorem eraseClock_idem (s : State) : eraseClock (eraseClock s) = eraseClock s := by
  simp only [eraseClock, map_eraseTimestamp_idem]


theorem commandWord_injective (c c' : Command) (h : commandWord c = commandWord c') : c = c' := by
  cases c with
  | connect => cases c' with
    | connect => rfl
    | disconnect => exact absurd h (by decide)
  | disconnect => cases c' with
    | connect => exact absurd h (by decide)
    | disconnect => rfl

/-- Events with the same word differ in the clock value at most. -/
theorem stopClock_eq_of_eventWord_eq (ev ev' : InputEvent) (h : eventWord ev = eventWord ev') :
    stopClock ev = stopClock ev' := by
  cases ev with
  | reset => cases ev' with
    | reset => rfl
    | rx b t => cases h
    | cmd c => cases h
  | rx b t => cases ev' with
    | reset => cases h
    | rx b' t' => cases h; rfl
    | cmd c => cases h
  | cmd c => cases ev' with
    | reset => cases h
    | rx b t => cases h
    | cmd c' => rw [commandWord_injective c c' (congrArg Prod.snd h)]

/-! ### No operation reads the clock -/

theorem eraseClock_splitAtSync (b : Byte) (s : State) : eraseClock (splitAtSync b s) = splitAtSync b (eraseClock s) := by
  by_cases hc : b = sync0 ∧ s.buf ≠ []
  · simp [splitAtSync, takeCandidate, eraseClock, hc]
  · rw [splitAtSync_no_emission b s hc, splitAtSync_no_emission b (eraseClock s) hc]
    rfl

theorem eraseClock_appendByte (b : Byte) (s : State) : eraseClock (appendByte b s) = appendByte b (eraseClock s) := by
  cases hf : bufferFull s.params s.buf with
  | true =>
    rw [appendByte_full b s hf, appendByte_full b (eraseClock s) hf]
    rfl
  | false =>
    rw [appendByte_room b s hf, appendByte_room b (eraseClock s) hf]
    rfl

theorem eraseClock_feed (b : Byte) (s : State) : eraseClock (feed b s) = feed b (eraseClock s) := by
  rw [feed, eraseClock_appendByte, eraseClock_splitAtSync, feed]

theorem eraseClock_reported (f : Frame) (s : State) : eraseClock (reported f s) = eraseClock (reported f (eraseClock s)) := by
  cases h : codec f with
  | ok p =>
    rw [reported_of_codec_ok f _ p.1 p.2 h, reported_of_codec_ok f _ p.1 p.2 h]
    simp [eraseClock]
  | error e =>
    rw [reported_of_codec_error f _ e h, reported_of_codec_error f _ e h]
    simp [eraseClock]

/-- Handling an event, the clock erased behind it, is the same with the clock erased before it. -/
theorem eraseOutcome_handleEvent (ev : InputEvent) (s : State) (hs : s.stage = .idle) :
    eraseOutcome (handleEvent ev s) = eraseOutcome (handleEvent (stopClock ev) (eraseClock s)) := by
  by_cases hr : ev = .reset
  · subst hr
    rw [stopClock, handleEvent_reset, handleEvent_reset]
    simp [eraseOutcome, eraseClock]
  · by_cases ho : s.ovf = true
    · have hr' : stopClock ev ≠ .reset := by
        cases ev with
        | reset => exact absurd rfl hr
        | _ => exact InputEvent.noConfusion
      rw [handleEvent_faulted ev s ho hr, handleEvent_faulted (stopClock ev) (eraseClock s) ho hr']
    · rw [Bool.not_eq_true] at ho
      cases ev with
      | reset => exact absurd rfl hr
      | cmd c =>
        rw [stopClock, handleEvent_cmd c s ho hs, handleEvent_cmd c (eraseClock s) ho hs]
        simp [eraseOutcome, eraseClock, encodeCommand, emit]
      | rx b t =>
        have hfeed : eraseClock (feed b { s with now := t }) = eraseClock (feed b { eraseClock s with now := ⟨0⟩ }) :=
          calc eraseClock (feed b { s with now := t }) = feed b (eraseClock s) := eraseClock_feed b _
            _ = feed b (eraseClock (eraseClock s)) := by rw [eraseClock_idem]
            _ = eraseClock (feed b { eraseClock s with now := ⟨0⟩ }) := (eraseClock_feed b _).symm
        rw [stopClock, handleEvent_rx b t s ho, handleEvent_rx b ⟨0⟩ (eraseClock s) ho]
        refine congrArg Host.Outcome.next ?_
        by_cases hc : b = sync0 ∧ s.buf ≠ []
        · rw [if_pos hc, if_pos (show b = sync0 ∧ (eraseClock s).buf ≠ [] from hc), eraseClock_reported, hfeed,
            ← eraseClock_reported]
          rfl
        · rw [if_neg hc, if_neg (show ¬ (b = sync0 ∧ (eraseClock s).buf ≠ []) from hc)]
          exact hfeed

/-! ### Two runs -/

/-- Outcomes that are equal but for the clock are of one kind. -/
theorem eraseOutcome_eq_cases (o o' : Host.Outcome State Fault Refusal) (h : eraseOutcome o = eraseOutcome o') :
    (∃ t t', o = .next t ∧ o' = .next t' ∧ eraseClock t = eraseClock t') ∨ (∃ r, o = .fault r ∧ o' = .fault r) ∨
      (∃ r, o = .refused r ∧ o' = .refused r) := by
  cases o with
  | next t => cases o' with
    | next t' => exact .inl ⟨t, t', rfl, rfl, Host.Outcome.next.inj h⟩
    | fault r => cases h
    | refused r => cases h
  | fault r => cases o' with
    | next t => cases h
    | fault r' => cases h; exact .inr (.inl ⟨r, rfl, rfl⟩)
    | refused r' => cases h
  | refused r => cases o' with
    | next t => cases h
    | fault r' => cases h
    | refused r' => cases h; exact .inr (.inr ⟨r, rfl, rfl⟩)

/-- The step that takes the first of some events. -/
theorem step_cons (ev : InputEvent) (rest : List InputEvent) (s : State) (hs : s.stage = .idle) :
    step { s with inputs := ev :: rest } = andThen (handleEvent ev s) fun t => .next { t with inputs := rest } := by
  rw [step_event { s with inputs := ev :: rest } ev rest hs rfl]
  exact handleEvent_withInputs ev s rest hs

theorem run_succ_andThen (n : Nat) (s : State) : run (n + 1) s = andThen (step s) (run n) := by
  cases h : step s with
  | next t => rw [run_succ n s t h, andThen_next]
  | fault r => rw [run_succ_fault n s r h, andThen_fault]
  | refused r =>
    have hc : core.step s = .refused r := h
    simp only [run, Host.Core.run, hc]
    rfl

/-- Fed the same events but for the clock values, from states equal but for the clock, two runs end so too. -/
theorem eraseOutcome_run (evs evs' : List InputEvent) (s s' : State) (hs : s.stage = .idle) (hs' : s'.stage = .idle)
    (hev : evs.map eventWord = evs'.map eventWord) (he : eraseClock s = eraseClock s') :
    eraseOutcome (run evs.length { s with inputs := evs }) = eraseOutcome (run evs'.length { s' with inputs := evs' }) := by
  induction evs generalizing evs' s s' with
  | nil =>
    obtain rfl : evs' = [] := List.map_eq_nil_iff.mp hev.symm
    exact congrArg Host.Outcome.next he
  | cons ev evs ih =>
    obtain ⟨ev', rest, rfl, hword, hrest⟩ : ∃ ev' rest, evs' = ev' :: rest ∧ eventWord ev = eventWord ev' ∧
        evs.map eventWord = rest.map eventWord := by
      cases evs' with
      | nil => cases hev
      | cons ev' rest =>
        obtain ⟨hword, hrest⟩ := List.cons_eq_cons.mp hev
        exact ⟨ev', rest, rfl, hword, hrest⟩
    have hone : eraseOutcome (handleEvent ev s) = eraseOutcome (handleEvent ev' s') := by
      rw [eraseOutcome_handleEvent ev s hs, eraseOutcome_handleEvent ev' s' hs', he,
        stopClock_eq_of_eventWord_eq ev ev' hword]
    rw [List.length_cons, List.length_cons, run_succ_andThen, run_succ_andThen, step_cons ev evs s hs, step_cons ev' rest s' hs']
    rcases eraseOutcome_eq_cases _ _ hone with ⟨t, t', ht, ht', htt⟩ | ⟨r, hr, hr'⟩ | ⟨r, hr, hr'⟩
    · rw [ht, ht']
      exact ih rest t t' (handleEvent_boundary ev s t hs ht).1 (handleEvent_boundary ev' s' t' hs' ht').1 hrest htt
    · rw [hr, hr']
      rfl
    · rw [hr, hr']
      rfl

/-- Settles O56: `eraseOutcome_run` from one state, read off clause by clause; completion is `run_unbounded`. -/
theorem theClockReachesOnlyTimestamps : Obligations.TheClockReachesOnlyTimestamps := by
  intro s evs evs' hs hev
  have hrun := eraseOutcome_eq_cases _ _ (eraseOutcome_run evs evs' s s hs hs hev rfl)
  refine ⟨fun t ht => ?_, fun r hr => ?_, fun ho hcap => ⟨_, run_unbounded evs s hs ho hcap⟩⟩
  · rw [ht] at hrun
    rcases hrun with ⟨u, t', hu, ht', heq⟩ | ⟨r, h, -⟩ | ⟨r, h, -⟩
    · cases hu
      have hout : t.outputs.map eraseTimestamp = t'.outputs.map eraseTimestamp := congrArg State.outputs heq
      refine ⟨t', ht', show (eraseClock t).buf = _ by rw [heq]; rfl, show (eraseClock t).seq = _ by rw [heq]; rfl,
        show (eraseClock t).ovf = _ by rw [heq]; rfl, ?_⟩
      rw [newOutputs, newOutputs, List.map_drop, List.map_drop, hout]
    · cases h
    · cases h
  · rw [hr] at hrun
    rcases hrun with ⟨u, t', h, -, -⟩ | ⟨r', h, h'⟩ | ⟨r', h, -⟩
    · cases h
    · cases h
      exact h'
    · cases h

end Sys2Proof.Machine
end

section
/-! PROOFS. The statements of `41_validator.md` about lengths and changed bytes: when the length check fails and with what
fields, the bound on the sum, the shortest frames, one changed byte and the head of a split frame. -/

namespace Sys2Proof.Machine

open Sys2Proof.Safety

/-! ### The length check and its error (R107, R108) -/

theorem validate_lengthMismatch_iff (f : Frame) (d : Option Byte) (a : Int) :
    validate f = .error (.lengthMismatch d a) ↔
      headerOk f = true ∧ lengthOk f = false ∧ d = declaredLength f ∧ a = actualLength f := by
  unfold validate
  cases headerOk f
  case false => simp
  case true =>
    cases lengthOk f
    case false => simp [eq_comm]
    case true => cases checksumOk f <;> simp

theorem lengthOk_false_iff (f : Frame) : lengthOk f = false ↔ f.length < 4 ∨ (byteAt f 2).toNat + 4 ≠ f.length := by
  rw [← Bool.not_eq_true, lengthOk_iff]
  omega

/-- Settles O28: behind the header the mismatch is the length check's failure, and it carries that check's two sides. -/
theorem lengthCheckFailsExactly : Obligations.LengthCheckFailsExactly := by
  intro f htwo h0 h1
  have hheader : headerOk f = true := (headerOk_iff f).mpr ⟨htwo, h0, h1⟩
  have hiff : (∃ d a, validate f = .error (.lengthMismatch d a)) ↔ lengthOk f = false := by
    simp only [validate_lengthMismatch_iff, hheader, true_and, exists_and_left, exists_eq, and_true]
  refine ⟨hiff.trans (lengthOk_false_iff f), fun d a h => ?_, fun hlong => hiff.mpr ?_⟩
  · obtain ⟨-, -, hd, ha⟩ := (validate_lengthMismatch_iff f d a).mp h
    refine ⟨?_, ha⟩
    rw [hd, declaredLength]
    by_cases hlen : f.length = 2
    · rw [if_neg (by omega), if_pos hlen]
    · rw [if_pos (by omega), if_neg hlen]
  · rw [← Bool.not_eq_true]
    intro hlen
    have := lengthOk_length_le f hlen
    omega

/-- Settles O31: VALIDATE's Ok is the envelope, and its errors are never Malformed. -/
theorem validateHandsOnOrFails : Obligations.ValidateHandsOnOrFails := by
  intro f s
  refine ⟨fun h => exec_validate_ok f s ((validatedExactlyTheEnvelope f).mpr h), fun h => ?_⟩
  cases hv : validate f with
  | ok u => exact absurd ((validatedExactlyTheEnvelope f).mp hv) h
  | error e =>
    exact ⟨e, fun he => validate_not_malformed f (he ▸ hv), rfl, exec_validate_error f s e hv⟩

/-! ### The sum does not wrap (R109, R113) -/

theorem length_summedRange (f : Frame) : (summedRange f).length = f.length - 4 := by
  rw [summedRange, List.length_drop, List.length_take]
  omega

/-- At most 255 bytes of at most 255 each. -/
theorem sumBytes_summedRange_le (f : Frame) (h : f.length ≤ 259) : sumBytes (summedRange f) ≤ 65025 := by
  have hsum := sumBytes_le (summedRange f)
  rw [length_summedRange] at hsum
  omega

/-- Settles O33: the length check bounds the frame (`lengthOk_length_le`), and the frame bounds the sum. -/
theorem checksumNeverWrapsAfterLengthCheck : Obligations.ChecksumNeverWrapsAfterLengthCheck := by
  intro f _ hlen
  have hsum := sumBytes_summedRange_le f (lengthOk_length_le f hlen)
  exact ⟨hsum, Nat.mod_eq_of_lt (by omega)⟩

/-! ### The shortest frames -/


theorem validate_ok_four (b0 b1 b2 b3 : Byte) :
    validate [b0, b1, b2, b3] = .ok () ↔ [b0, b1, b2, b3] = [0xAB, 0xCD, 0x00, 0x00] := by
  rw [validatedExactlyTheEnvelope]
  constructor
  · rintro ⟨-, -, ⟨h0, h1⟩, h2, -, h3⟩
    have h2 : b2.toNat = 0 := h2
    have hsum : rangeSum [b0, b1, b2, b3] = 0 := by simp [rangeSum]
    have h3 : b3.toNat = 0 := by rw [hsum] at h3; exact h3
    simp only [List.cons.injEq, and_true]
    exact ⟨h0, h1, BitVec.eq_of_toNat_eq h2, BitVec.eq_of_toNat_eq h3⟩
  · intro h
    rw [h]
    exact ⟨by decide, by decide, ⟨rfl, rfl⟩, rfl, rfl, rfl⟩

theorem validate_ok_five (b0 b1 b2 b3 b4 : Byte) :
    validate [b0, b1, b2, b3, b4] = .ok () ↔ [b0, b1, b2, b3, b4] = [0xAB, 0xCD, 0x01, 0x01, 0x00] := by
  rw [validatedExactlyTheEnvelope]
  constructor
  · rintro ⟨-, -, ⟨h0, h1⟩, h2, h3, h4⟩
    have h2 : b2.toNat = 1 := h2
    have hsum : rangeSum [b0, b1, b2, b3, b4] = 1 := by simp [rangeSum, h2]
    have h3 : b3.toNat = 1 := by rw [hsum] at h3; exact h3
    have h4 : b4.toNat = 0 := by rw [hsum] at h4; exact h4
    simp only [List.cons.injEq, and_true]
    exact ⟨h0, h1, BitVec.eq_of_toNat_eq h2, BitVec.eq_of_toNat_eq h3, BitVec.eq_of_toNat_eq h4⟩
  · intro h
    rw [h]
    exact ⟨by decide, by decide, ⟨rfl, rfl⟩, rfl, rfl, rfl⟩

/-- A frame without a byte 5 selects no layout. -/
theorem decodeFields_of_no_layout (f : Frame) (h : f.length < 6) : decodeFields f = .error .malformed := by
  simp only [decodeFields, selectLayout_none f h]

theorem codec_of_validate_ok (f : Frame) (h : validate f = .ok ()) : codec f = decodeFields f := by
  rw [codec, h]

theorem codec_of_validate_error (f : Frame) (e : DecodeError) (h : validate f = .error e) : codec f = .error e := by
  rw [codec, h]

/-- Settles O34: the length byte of so short a frame fixes every other byte. -/
theorem degenerateFramesThatValidate : Obligations.DegenerateFramesThatValidate := by
  refine ⟨fun f hlen h => ?_, fun f hlen => ?_, fun f hlen => ?_, fun f hlen h => ?_⟩
  · have := ((validatedExactlyTheEnvelope f).mp h).least
    omega
  · obtain ⟨b0, b1, b2, b3, rfl⟩ := List.length_eq_four.mp hlen
    exact validate_ok_four b0 b1 b2 b3
  · rcases f with _ | ⟨b0, f⟩
    · cases hlen
    · obtain ⟨b1, b2, b3, b4, rfl⟩ := List.length_eq_four.mp (Nat.succ.inj hlen)
      exact validate_ok_five b0 b1 b2 b3 b4
  · rw [codec_of_validate_ok f h, decodeFields_of_no_layout f (by omega)]

/-! ### One changed byte (R114) -/

theorem byteAt_set_same (f : Frame) (i : Nat) (v : Byte) (h : i < f.length) : byteAt (f.set i v) i = v := by
  simp [byteAt, h]

theorem byteAt_set_other (f : Frame) (i k : Nat) (v : Byte) (h : k ≠ i) : byteAt (f.set i v) k = byteAt f k := by
  simp [byteAt, List.getElem?_set_ne h.symm]

theorem byteAt_eq_getElem (f : Frame) (i : Nat) (h : i < f.length) : byteAt f i = f[i] := by
  simp [byteAt, h]

/-- A changed byte changes the sum by the difference. -/
theorem sumBytes_set (s : Frame) (j : Nat) (v : Byte) (h : j < s.length) :
    sumBytes (s.set j v) + s[j].toNat = sumBytes s + v.toNat := by
  induction s generalizing j with
  | nil => cases h
  | cons b bs ih =>
    cases j with
    | zero => simp only [List.set_cons_zero, sumBytes, List.getElem_cons_zero]; omega
    | succ j =>
      have hih := ih j (Nat.lt_of_succ_lt_succ h)
      simp only [List.set_cons_succ, sumBytes, List.getElem_cons_succ]
      omega

/-! A byte behind offset 2 stands either in the trailer or under the sum. -/

theorem summedRange_set_trailer (f : Frame) (i : Nat) (v : Byte) (h : f.length - 2 ≤ i) :
    summedRange (f.set i v) = summedRange f := by
  rw [summedRange, List.length_set, List.take_set_of_le h, summedRange]

theorem trailer_set_trailer (f : Frame) (i : Nat) (v : Byte) (h : f.length - 2 ≤ i) :
    trailer (f.set i v) = (trailer f).set (i - (f.length - 2)) v := by
  rw [trailer, List.length_set, List.drop_set, if_neg (Nat.not_lt.mpr h), trailer]

theorem summedRange_set_summed (f : Frame) (i : Nat) (v : Byte) (h : 2 ≤ i) :
    summedRange (f.set i v) = (summedRange f).set (i - 2) v := by
  rw [summedRange, List.length_set, List.take_set, List.drop_set, if_neg (Nat.not_lt.mpr h), summedRange]

theorem trailer_set_summed (f : Frame) (i : Nat) (v : Byte) (h : i < f.length - 2) : trailer (f.set i v) = trailer f := by
  rw [trailer, List.length_set, List.drop_set, if_pos h, trailer]

/-- Behind offset 2, a changed byte of a frame within the length bound breaks the checksum: the trailer or the sum changes,
and the sum does not wrap. -/
theorem checksumOk_set_false (f : Frame) (i : Nat) (v : Byte) (hlong : f.length ≤ 259) (hok : checksumOk f = true)
    (htwo : 2 ≤ i) (hi : i < f.length) (hv : v ≠ byteAt f i) : checksumOk (f.set i v) = false := by
  rw [checksumOk_iff_trailer] at hok
  rw [← Bool.not_eq_true, checksumOk_iff_trailer]
  intro hset
  rw [byteAt_eq_getElem f i hi] at hv
  by_cases htrailer : f.length - 2 ≤ i
  · rw [summedRange_set_trailer f i v htrailer, trailer_set_trailer f i v htrailer, ← hok, trailer] at hset
    have hbyte := congrArg (fun l : Frame => l[i - (f.length - 2)]?) hset
    rw [List.getElem?_set_self (by rw [List.length_drop]; omega), List.getElem?_drop, Nat.add_sub_cancel' htrailer,
      List.getElem?_eq_getElem hi] at hbyte
    exact hv (Option.some.inj hbyte)
  · have hsum := summedRange_set_summed f i v htwo
    rw [trailer_set_summed f i v (Nat.not_le.mp htrailer), hok, checksum_eq_iff] at hset
    have hj : i - 2 < (summedRange f).length := by rw [length_summedRange]; omega
    have hget : (summedRange f)[i - 2] = f[i] := by
      simp only [summedRange, List.getElem_drop, List.getElem_take, Nat.add_sub_cancel' htwo]
    have hdiff := sumBytes_set (summedRange f) (i - 2) v hj
    have hle := sumBytes_summedRange_le f hlong
    have hle' := sumBytes_summedRange_le (f.set i v) (by rwa [List.length_set])
    rw [← hsum, hget] at hdiff
    exact hv (BitVec.eq_of_toNat_eq (by omega))

/-- Settles O35, check by check: the first one that looks at the changed byte fails. -/
theorem oneChangedByteIsDetected : Obligations.OneChangedByteIsDetected := by
  intro f i v hok hi hv
  obtain ⟨hleast, hmost, ⟨h0, h1⟩, hlen, -⟩ := (validatedExactlyTheEnvelope f).mp hok
  obtain ⟨-, -, hchk⟩ := (validate_ok_iff f).mp hok
  split_ifs with hheader htwo
  case pos =>
    rw [headerCheckFailsExactly]
    obtain rfl | rfl : i = 0 ∨ i = 1 := by omega
    · exact .inr (.inl (by rw [byteAt_set_same f 0 v hi, ← h0]; exact hv))
    · exact .inr (.inr (by rw [byteAt_set_same f 1 v hi, ← h1]; exact hv))
  all_goals
    have hset : headerOk (f.set i v) = true := by
      rw [headerOk_iff, List.length_set, byteAt_set_other f i 0 v (by omega), byteAt_set_other f i 1 v (by omega)]
      exact ⟨by omega, h0, h1⟩
  case pos =>
    subst htwo
    rw [validate_lengthMismatch_iff, lengthOk_false_iff, declaredLength, actualLength, List.length_set,
      byteAt_set_same f 2 v hi, if_pos (by omega)]
    refine ⟨hset, .inr fun h => hv (BitVec.eq_of_toNat_eq ?_), rfl, rfl⟩
    omega
  case neg =>
    have hlength : lengthOk (f.set i v) = true := by
      rw [lengthOk_iff, List.length_set, byteAt_set_other f i 2 v (by omega)]
      exact ⟨hleast, hlen⟩
    rw [validate_of_headerOk_lengthOk _ hset hlength,
      checksumOk_set_false f i v hmost hchk (by omega) hi hv]
    rfl

/-! ### The head of a split frame -/

theorem byteAt_take (f : Frame) (p k : Nat) (h : k < p) : byteAt (f.take p) k = byteAt f k := by
  simp [byteAt, List.getElem?_take_of_lt h]

/-- Settles O36: the head keeps the marker and the length byte, which counts the whole frame. -/
theorem headOfASplitFrameFails : Obligations.HeadOfASplitFrameFails := by
  intro f p hok htwo hp
  obtain ⟨hleast, -, ⟨h0, h1⟩, hlen, -⟩ := (validatedExactlyTheEnvelope f).mp hok
  have hlp : (f.take p).length = p := by rw [List.length_take]; omega
  rw [validate_lengthMismatch_iff]
  refine ⟨?_, ?_, ?_, ?_⟩
  · rw [headerOk_iff, hlp, byteAt_take f p 0 (by omega), byteAt_take f p 1 (by omega)]
    exact ⟨htwo, h0, h1⟩
  · rw [lengthOk_false_iff, hlp]
    by_cases hp2 : p = 2
    · exact .inl (by omega)
    · rw [byteAt_take f p 2 (by omega)]
      exact .inr (by omega)
  · rw [declaredLength, hlp]
    by_cases hp2 : p = 2
    · rw [if_pos hp2, if_neg (by omega)]
    · rw [if_neg hp2, if_pos (by omega), byteAt_take f p 2 (by omega)]
  · rw [actualLength, hlp]

end Sys2Proof.Machine
end

section
/-! PROOFS. The statements of `42_decoder.md`: the reads, the two layouts as the only sources of a result or of Malformed, the
bytes that count, and DEC4 as the nearest integer. -/

namespace Sys2Proof.Machine

open Sys2Proof.Safety

/-! ### Reads -/

theorem byteAt_map_range (g : Nat → Byte) (n k : Nat) (h : k < n) : byteAt ((List.range n).map g) k = g k := by
  simp [byteAt, h]

/-- Settles O37: `frameRead_some` and `frameRead_none`. -/
theorem frameReadIsBounded : Obligations.FrameReadIsBounded := by
  intro f off n
  refine ⟨fun h => ⟨_, frameRead_some f off n h, ?_, fun k hk => byteAt_map_range _ n k hk⟩, frameRead_none f off n⟩
  rw [List.length_map, List.length_range]

theorem eq_four_bytes (f : Frame) (h : f.length = 4) : f = [byteAt f 0, byteAt f 1, byteAt f 2, byteAt f 3] := by
  obtain ⟨b0, b1, b2, b3, rfl⟩ := List.length_eq_four.mp h
  rfl

/-- Settles O42: four bytes are unit text exactly when all are ASCII. -/
theorem unitTextSubstitutesOmega : Obligations.UnitTextSubstitutesOmega := by
  intro f hlen
  refine ⟨fun h => ?_, fun h => ?_⟩
  · rw [← unitText_of_ascii f 0 h]
    exact congrArg unitText (eq_four_bytes f hlen)
  · rw [← unitText_of_not_ascii f 0 h]
    exact congrArg unitText (eq_four_bytes f hlen)

/-! ### The two `DECODE` rows: a result or Malformed -/

/-- The Dual layout reads inside the frame and finds unit text where it looks for it. -/
def DualReadable (f : Frame) : Prop := 31 ≤ f.length ∧ AsciiAt f 15 ∧ AsciiAt f 27

/-- The same for the Extrema layout. -/
def ExtremaReadable (f : Frame) : Prop := 46 ≤ f.length ∧ AsciiAt f 42

theorem dualReading_of_readable (f : Frame) (h : DualReadable f) : dualReading f = some (dualAt f) :=
  dualReading_some f h.1 h.2.1 h.2.2

theorem extremaReading_of_readable (f : Frame) (h : ExtremaReadable f) : extremaReading f = some (extremaAt f) :=
  extremaReading_some f h.1 h.2

/-- A frame that either layout can read is long enough for the flags. -/
theorem statusFlags_of_dualReadable (f : Frame) (h : DualReadable f) : statusFlags f = some (flagsAt f) :=
  statusFlags_some f (le_trans (by decide) h.1)

theorem statusFlags_of_extremaReadable (f : Frame) (h : ExtremaReadable f) : statusFlags f = some (flagsAt f) :=
  statusFlags_some f (le_trans (by decide) h.1)

theorem exec_decodeDual (f : Frame) (s : State) :
    exec (.decodeDual f) s = .next (deliver f (statusFlags f) (dualReading f) s) := rfl

theorem exec_decodeExtrema (f : Frame) (s : State) :
    exec (.decodeExtrema f) s = .next (deliver f (statusFlags f) (extremaReading f) s) := rfl

/-- Without a reading there is no result, whatever the flags. -/
theorem deliver_none (f : Frame) (fl : Option StatusFlags) (s : State) :
    deliver f fl none s = { s with stage := .failed f .malformed } := by
  cases fl <;> rfl

theorem exec_decodeDual_ok (f : Frame) (s : State) (h : DualReadable f) :
    exec (.decodeDual f) s = .next { s with stage := .decoded f (dualAt f) (flagsAt f) } := by
  rw [exec_decodeDual, dualReading_of_readable f h, statusFlags_of_dualReadable f h]
  rfl

theorem exec_decodeDual_malformed (f : Frame) (s : State) (h : ¬ DualReadable f) :
    exec (.decodeDual f) s = .next { s with stage := .failed f .malformed } := by
  rw [exec_decodeDual, dualReading_none f h, deliver_none]

theorem exec_decodeExtrema_ok (f : Frame) (s : State) (h : ExtremaReadable f) :
    exec (.decodeExtrema f) s = .next { s with stage := .decoded f (extremaAt f) (flagsAt f) } := by
  rw [exec_decodeExtrema, extremaReading_of_readable f h, statusFlags_of_extremaReadable f h]
  rfl

theorem exec_decodeExtrema_malformed (f : Frame) (s : State) (h : ¬ ExtremaReadable f) :
    exec (.decodeExtrema f) s = .next { s with stage := .failed f .malformed } := by
  rw [exec_decodeExtrema, extremaReading_none f h, deliver_none]

/-- Settles O38. -/
theorem dualDecodesOrIsMalformed : Obligations.DualDecodesOrIsMalformed := fun f s =>
  ⟨exec_decodeDual_ok f s, exec_decodeDual_malformed f s⟩

/-- Settles O39. -/
theorem extremaDecodesOrIsMalformed : Obligations.ExtremaDecodesOrIsMalformed := fun f s =>
  ⟨exec_decodeExtrema_ok f s, exec_decodeExtrema_malformed f s⟩

/-! ### DECODE as a function of the frame -/

/-- All or nothing (R135): a result needs the reading and the flags. -/
def combine (reading : Option Reading) (flags : Option StatusFlags) : Except DecodeError (Reading × StatusFlags) :=
  match reading, flags with
  | some r, some fl => .ok (r, fl)
  | _, _ => .error .malformed

theorem combine_none (fl : Option StatusFlags) : combine none fl = .error .malformed := by cases fl <;> rfl

theorem decodeFields_of_dual (f : Frame) (h6 : 6 ≤ f.length) (hc : captureBit f = false) :
    decodeFields f = combine (dualReading f) (statusFlags f) := by
  simp only [decodeFields, selectLayout_some f h6, hc, Bool.false_eq_true, if_false]
  rfl

theorem decodeFields_of_extrema (f : Frame) (h6 : 6 ≤ f.length) (hc : captureBit f = true) :
    decodeFields f = combine (extremaReading f) (statusFlags f) := by
  simp only [decodeFields, selectLayout_some f h6, hc, if_true]
  rfl

theorem decodeFields_dual_ok (f : Frame) (hc : captureBit f = false) (h : DualReadable f) :
    decodeFields f = .ok (dualAt f, flagsAt f) := by
  rw [decodeFields_of_dual f (le_trans (by decide) h.1) hc, dualReading_of_readable f h, statusFlags_of_dualReadable f h]
  rfl

theorem decodeFields_dual_malformed (f : Frame) (h6 : 6 ≤ f.length) (hc : captureBit f = false) (h : ¬ DualReadable f) :
    decodeFields f = .error .malformed := by
  rw [decodeFields_of_dual f h6 hc, dualReading_none f h, combine_none]

theorem decodeFields_extrema_ok (f : Frame) (hc : captureBit f = true) (h : ExtremaReadable f) :
    decodeFields f = .ok (extremaAt f, flagsAt f) := by
  rw [decodeFields_of_extrema f (le_trans (by decide) h.1) hc, extremaReading_of_readable f h,
    statusFlags_of_extremaReadable f h]
  rfl

theorem decodeFields_extrema_malformed (f : Frame) (h6 : 6 ≤ f.length) (hc : captureBit f = true)
    (h : ¬ ExtremaReadable f) : decodeFields f = .error .malformed := by
  rw [decodeFields_of_extrema f h6 hc, extremaReading_none f h, combine_none]

theorem error_malformed_iff (e : DecodeError) :
    (.error .malformed : Except DecodeError (Reading × StatusFlags)) = .error e ↔ e = .malformed := by
  rw [Except.error.injEq, eq_comm]

/-- Settles O44, over the layout the frame selects and whether that layout can read it. -/
theorem malformedExactlyWhen : Obligations.MalformedExactlyWhen := by
  intro f e
  change _ ↔ e = .malformed ∧ (f.length < 6 ∨ (captureBit f = false ∧ _) ∨ (captureBit f = true ∧ _))
  have hdual : (f.length < 31 ∨ ¬ AsciiAt f 15 ∨ ¬ AsciiAt f 27) ↔ ¬ DualReadable f := by
    rw [DualReadable, not_and_or, not_and_or, not_le]
  have hextrema : (f.length < 46 ∨ ¬ AsciiAt f 42) ↔ ¬ ExtremaReadable f := by
    rw [ExtremaReadable, not_and_or, not_le]
  rw [hdual, hextrema]
  by_cases h6 : f.length < 6
  · rw [decodeFields_of_no_layout f h6, error_malformed_iff]
    simp [h6]
  · cases hc : captureBit f with
    | false =>
      by_cases hr : DualReadable f
      · rw [decodeFields_dual_ok f hc hr]
        simp [h6, hr]
      · rw [decodeFields_dual_malformed f (not_lt.mp h6) hc hr, error_malformed_iff]
        simp [hr]
    | true =>
      by_cases hr : ExtremaReadable f
      · rw [decodeFields_extrema_ok f hc hr]
        simp [h6, hr]
      · rw [decodeFields_extrema_malformed f (not_lt.mp h6) hc hr, error_malformed_iff]
        simp [hr]

/-! ### The layout is selected by one bit (R126) -/

theorem step_validated_short (s : State) (f : Frame) (h : s.stage = .validated f) (h6 : f.length < 6) :
    step s = .next (takeError .malformed f s) := by
  rw [step_of_validated s f h, runDecode, selectLayout_none f h6]
  rfl

theorem step_validated (s : State) (f : Frame) (h : s.stage = .validated f) (h6 : 6 ≤ f.length) :
    step s = andThen (exec (if captureBit f then .decodeExtrema f else .decodeDual f) s) fun t => .next (reportStage t) := by
  rw [step_of_validated s f h, runDecode, selectLayout_some f h6]

/-- A reading of a frame with the capture flag clear is a Dual reading. -/
theorem decodeFields_dual_form (f : Frame) (r : Reading) (fl : StatusFlags) (h6 : 6 ≤ f.length) (hc : captureBit f = false)
    (h : decodeFields f = .ok (r, fl)) : r = dualAt f := by
  by_cases hr : DualReadable f
  · rw [decodeFields_dual_ok f hc hr] at h
    cases h
    rfl
  · rw [decodeFields_dual_malformed f h6 hc hr] at h
    cases h

theorem decodeFields_extrema_form (f : Frame) (r : Reading) (fl : StatusFlags) (h6 : 6 ≤ f.length)
    (hc : captureBit f = true) (h : decodeFields f = .ok (r, fl)) : r = extremaAt f := by
  by_cases hr : ExtremaReadable f
  · rw [decodeFields_extrema_ok f hc hr] at h
    cases h
    rfl
  · rw [decodeFields_extrema_malformed f h6 hc hr] at h
    cases h

/-- Settles O40: `step_validated` picks the row by the capture flag alone, and that row answers for its own layout. -/
theorem layoutIsSelectedByOneBit : Obligations.LayoutIsSelectedByOneBit := by
  intro s f h
  refine ⟨step_validated_short s f h, fun h6 hc => ⟨?_, fun r fl hd => ?_⟩, fun h6 hc => ⟨?_, fun r fl hd => ?_⟩,
    fun h6 hc hshort => ?_⟩
  · rw [step_validated s f h h6, show captureBit f = false from hc]
    rfl
  · exact ⟨_, _, _, _, decodeFields_dual_form f r fl h6 hc hd⟩
  · rw [step_validated s f h h6, show captureBit f = true from hc]
    rfl
  · exact ⟨_, _, _, _, _, decodeFields_extrema_form f r fl h6 hc hd⟩
  · rw [step_validated s f h h6, show captureBit f = true from hc, if_pos rfl,
      exec_decodeExtrema_malformed f s (fun hr => absurd hr.1 (Nat.not_le.mpr hshort))]
    rfl

/-! ### The bytes that count -/

/-- The frames agree on the four bytes of the field at an offset. -/
def SameField (f g : Frame) (off : Nat) : Prop := ∀ i < 4, byteAt f (off + i) = byteAt g (off + i)

theorem wordAt_congr (f g : Frame) (off : Nat) (h : SameField f g off) : wordAt f off = wordAt g off := by
  have h0 : byteAt f off = byteAt g off := h 0 (by decide)
  rw [wordAt, wordAt, h0, h 1 (by decide), h 2 (by decide), h 3 (by decide)]

theorem floatAt_congr (f g : Frame) (off : Nat) (h : SameField f g off) : floatAt f off = floatAt g off := by
  rw [floatAt, floatAt, wordAt_congr f g off h]

theorem u32At_congr (f g : Frame) (off : Nat) (h : SameField f g off) : u32At f off = u32At g off := by
  rw [u32At, u32At, wordAt_congr f g off h]

theorem textAt_congr (f g : Frame) (off : Nat) (h : SameField f g off) : textAt f off = textAt g off := by
  have h0 : byteAt f off = byteAt g off := h 0 (by decide)
  simp only [textAt, glyphAt, h0, h 1 (by decide), h 2 (by decide), h 3 (by decide)]

theorem asciiAt_congr (f g : Frame) (off : Nat) (h : SameField f g off) : AsciiAt f off ↔ AsciiAt g off :=
  forall₂_congr fun i hi => by rw [h i hi]

/-- The Dual reading depends on the length and its four fields. -/
theorem dualReading_congr (f g : Frame) (hlen : f.length = g.length) (h10 : SameField f g 10) (h15 : SameField f g 15)
    (h23 : SameField f g 23) (h27 : SameField f g 27) : dualReading f = dualReading g := by
  have hiff : DualReadable f ↔ DualReadable g := by
    rw [DualReadable, DualReadable, hlen, asciiAt_congr f g 15 h15, asciiAt_congr f g 27 h27]
  by_cases hr : DualReadable f
  · rw [dualReading_of_readable f hr, dualReading_of_readable g (hiff.mp hr), dualAt, dualAt, floatAt_congr f g 10 h10,
      textAt_congr f g 15 h15, floatAt_congr f g 23 h23, textAt_congr f g 27 h27]
  · rw [dualReading_none f hr, dualReading_none g (fun h => hr (hiff.mpr h))]

/-- The Extrema reading depends on the length and its eight fields. -/
theorem extremaReading_congr (f g : Frame) (hlen : f.length = g.length) (h10 : SameField f g 10) (h42 : SameField f g 42)
    (h15 : SameField f g 15) (h20 : SameField f g 20) (h24 : SameField f g 24) (h29 : SameField f g 29)
    (h33 : SameField f g 33) (h38 : SameField f g 38) : extremaReading f = extremaReading g := by
  have hiff : ExtremaReadable f ↔ ExtremaReadable g := by
    rw [ExtremaReadable, ExtremaReadable, hlen, asciiAt_congr f g 42 h42]
  by_cases hr : ExtremaReadable f
  · rw [extremaReading_of_readable f hr, extremaReading_of_readable g (hiff.mp hr), extremaAt, extremaAt,
      floatAt_congr f g 10 h10, textAt_congr f g 42 h42, floatAt_congr f g 15 h15, u32At_congr f g 20 h20,
      floatAt_congr f g 24 h24, u32At_congr f g 29 h29, floatAt_congr f g 33 h33, u32At_congr f g 38 h38]
  · rw [extremaReading_none f hr, extremaReading_none g (fun h => hr (hiff.mpr h))]

/-- The flags depend on the length, the bytes 3 to 9 and the low bit of byte 14. -/
theorem statusFlags_congr (f g : Frame) (hlen : f.length = g.length) (h : ∀ k, 3 ≤ k → k ≤ 9 → byteAt f k = byteAt g k)
    (h14 : (byteAt f 14).getLsbD 0 = (byteAt g 14).getLsbD 0) : statusFlags f = statusFlags g := by
  by_cases hl : 15 ≤ f.length
  · rw [statusFlags_some f hl, statusFlags_some g (hlen ▸ hl)]
    simp only [flagsAt, h14, h 3 (by decide) (by decide), h 4 (by decide) (by decide), h 5 (by decide) (by decide),
      h 6 (by decide) (by decide), h 7 (by decide) (by decide), h 8 (by decide) (by decide), h 9 (by decide) (by decide)]
  · rw [statusFlags_none f (not_le.mp hl), statusFlags_none g (hlen ▸ not_le.mp hl)]

/-- Settles O45: behind equal flags, the selected layout reads the named fields alone. -/
theorem unnamedBytesAreIgnored : Obligations.UnnamedBytesAreIgnored := by
  intro f g hlen hlow h14
  have hflags : statusFlags f = statusFlags g :=
    statusFlags_congr f g hlen (fun k h3 h9 => hlow k h3 (by omega)) h14
  have h5 : byteAt f 5 = byteAt g 5 := hlow 5 (by decide) (by decide)
  have h10 : SameField f g 10 := fun i hi => hlow (10 + i) (by omega) (by omega)
  by_cases h6 : f.length < 6
  · rw [decodeFields_of_no_layout f h6, decodeFields_of_no_layout g (hlen ▸ h6)]
    exact ⟨fun _ _ _ => rfl, fun _ _ => rfl⟩
  · have h6f : 6 ≤ f.length := not_lt.mp h6
    have h6g : 6 ≤ g.length := hlen ▸ h6f
    refine ⟨fun hc hunit hrest => ?_, fun hc hrest => ?_⟩
    · rw [decodeFields_of_dual f h6f hc, decodeFields_of_dual g h6g (show (byteAt g 5).getLsbD 5 = false from h5 ▸ hc), hflags,
        dualReading_congr f g hlen h10 (fun i hi => hunit _ (by omega) (by omega))
          (fun i hi => hrest _ (by omega) (by omega)) (fun i hi => hrest _ (by omega) (by omega))]
    · have hfield : ∀ off, off ∈ [42, 15, 20, 24, 29, 33, 38] → SameField f g off := by
        intro off hoff i hi
        simp only [List.mem_cons, List.not_mem_nil, or_false] at hoff
        exact hrest _ (by omega) (by omega) (by omega) (by omega) (by omega)
      rw [decodeFields_of_extrema f h6f hc, decodeFields_of_extrema g h6g (show (byteAt g 5).getLsbD 5 = true from h5 ▸ hc),
        hflags, extremaReading_congr f g hlen h10 (hfield 42 (by decide)) (hfield 15 (by decide)) (hfield 20 (by decide))
          (hfield 24 (by decide)) (hfield 29 (by decide)) (hfield 33 (by decide)) (hfield 38 (by decide))]

/-- What either row hands on carries the flags of its frame. -/
theorem exec_decode_flags (f : Frame) (s t : State) (r : Reading) (fl : StatusFlags)
    (h : exec (.decodeDual f) s = .next t ∨ exec (.decodeExtrema f) s = .next t) (ht : t.stage = .decoded f r fl) :
    fl = flagsAt f := by
  rcases h with h | h
  · by_cases hr : DualReadable f
    · rw [exec_decodeDual_ok f s hr] at h
      cases h
      cases ht
      rfl
    · rw [exec_decodeDual_malformed f s hr] at h
      cases h
      cases ht
  · by_cases hr : ExtremaReadable f
    · rw [exec_decodeExtrema_ok f s hr] at h
      cases h
      cases ht
      rfl
    · rw [exec_decodeExtrema_malformed f s hr] at h
      cases h
      cases ht

/-- Settles O41; the bytes 6 and 14 lie in no field of a reading. -/
theorem statusFlagsAreTheNamedBits : Obligations.StatusFlagsAreTheNamedBits := by
  refine ⟨fun f => ⟨statusFlags_some f, statusFlags_none f⟩, exec_decode_flags, fun f g hlen h => ?_⟩
  have hfield : ∀ off, off = 10 ∨ 15 ≤ off → SameField f g off := fun off hoff i hi => h _ (by omega) (by omega)
  have h10 := hfield 10 (.inl rfl)
  have h15 := hfield 15 (.inr (by decide))
  exact ⟨dualReading_congr f g hlen h10 h15 (hfield 23 (.inr (by decide))) (hfield 27 (.inr (by decide))),
    extremaReading_congr f g hlen h10 (hfield 42 (.inr (by decide))) h15 (hfield 20 (.inr (by decide)))
      (hfield 24 (.inr (by decide))) (hfield 29 (.inr (by decide))) (hfield 33 (.inr (by decide)))
      (hfield 38 (.inr (by decide)))⟩

/-! ### DEC4 (R137, R141) -/

theorem toNat_exponentBits (raw : BitVec 32) : (raw.extractLsb 30 23).toNat = exponentField raw := by
  simp [exponentField, BitVec.extractLsb, BitVec.extractLsb', Nat.shiftRight_eq_div_pow]

theorem toNat_fractionBits (raw : BitVec 32) : (raw.extractLsb 22 0).toNat = fractionField raw := by
  simp [fractionField, BitVec.extractLsb, BitVec.extractLsb']

/-- The sign of a pattern as a factor. -/
def signFactor (raw : BitVec 32) : ℚ := if signBit raw then -1 else 1

/-- The exact magnitude of a finite pattern. -/
def exactMagnitude (raw : BitVec 32) : ℚ := significand raw * (2 : ℚ) ^ ((scaleExponent raw : ℤ) - 150)

/-- The exact value, a subnormal having the scale of exponent 1 and no leading 1. -/
theorem binary32_eq (raw : BitVec 32) :
    binary32 raw = if exponentField raw = 255 then none else some (signFactor raw * exactMagnitude raw) := by
  simp only [binary32, toNat_exponentBits, toNat_fractionBits, signFactor, signBit, exactMagnitude, significand, scaleExponent]
  by_cases h255 : exponentField raw = 255
  · simp [h255]
  · by_cases h0 : exponentField raw = 0
    · simp only [h0, if_true, mul_assoc]
      rfl
    · simp only [h255, h0, if_false, mul_assoc]
      push_cast
      rfl

/-- `k` is an integer nearest to `x`, the even one of two. -/
def IsNearestEven (x : ℚ) (k : ℤ) : Prop := |x - k| ≤ 1 / 2 ∧ (|x - k| = 1 / 2 → Even k)

theorem isNearestEven_natCast (n : ℕ) : IsNearestEven n n := by
  have h : (n : ℚ) - ((n : ℤ) : ℚ) = 0 := by simp
  rw [IsNearestEven, h]
  norm_num

theorem isNearestEven_neg (x : ℚ) (k : ℤ) (h : IsNearestEven x k) : IsNearestEven (-x) (-k) := by
  have habs : |-x - ((-k : ℤ) : ℚ)| = |x - k| := by
    rw [Int.cast_neg, ← neg_sub', abs_neg]
  rw [IsNearestEven, habs, even_neg]
  exact h

/-- `roundHalfEven_spec` over the rational numbers. -/
theorem isNearestEven_roundHalfEven (num den : ℕ) (h : 0 < den) :
    IsNearestEven ((num : ℚ) / den) (roundHalfEven num den : ℕ) := by
  obtain ⟨hlow, hhigh, htie⟩ := roundHalfEven_spec num den h
  have hden : (0 : ℚ) < den := by exact_mod_cast h
  have hlowQ : (2 * num : ℚ) ≤ 2 * (roundHalfEven num den * den) + den := by exact_mod_cast hlow
  have hhighQ : (2 * (roundHalfEven num den * den) : ℚ) ≤ 2 * num + den := by exact_mod_cast hhigh
  have hdiff : (num : ℚ) / den - ((roundHalfEven num den : ℤ) : ℚ) = (num - roundHalfEven num den * den) / den := by
    rw [Int.cast_natCast, sub_div, mul_div_assoc, div_self hden.ne', mul_one]
  have habs : |(num : ℚ) / den - ((roundHalfEven num den : ℤ) : ℚ)| = |(num : ℚ) - roundHalfEven num den * den| / den := by
    rw [hdiff, abs_div, abs_of_pos hden]
  rw [IsNearestEven, habs]
  constructor
  · rw [div_le_div_iff₀ hden two_pos, one_mul, ← le_div_iff₀ two_pos, abs_le]
    constructor <;> linarith
  · intro heq
    rw [div_eq_div_iff hden.ne' two_ne_zero, one_mul] at heq
    rw [Int.even_coe_nat, Nat.even_iff]
    apply htie
    rcases abs_cases ((num : ℚ) - roundHalfEven num den * den) with ⟨ha, -⟩ | ⟨ha, -⟩
    · rw [ha] at heq
      exact .inl (by exact_mod_cast (by linarith : (2 * num : ℚ) = 2 * (roundHalfEven num den * den) + den))
    · rw [ha] at heq
      exact .inr (by exact_mod_cast (by linarith : (2 * (roundHalfEven num den * den) : ℚ) = 2 * num + den))

/-- The magnitude DEC4 answers: exact where the scale is whole, rounded where it divides. -/
theorem isNearestEven_dec4Magnitude (raw : BitVec 32) :
    IsNearestEven (10000 * exactMagnitude raw) (dec4Magnitude raw : ℕ) := by
  by_cases hp : 150 ≤ scaleExponent raw
  · have hm : dec4Magnitude raw = 10000 * significand raw * 2 ^ (scaleExponent raw - 150) := by
      simp only [dec4Magnitude, if_pos hp]
    have he : ((scaleExponent raw : ℤ) - 150) = ((scaleExponent raw - 150 : ℕ) : ℤ) := by omega
    have hx : 10000 * exactMagnitude raw = ((dec4Magnitude raw : ℕ) : ℚ) := by
      rw [hm, exactMagnitude, he, zpow_natCast]
      push_cast
      ring
    rw [hx]
    exact isNearestEven_natCast _
  · have hm : dec4Magnitude raw = roundHalfEven (10000 * significand raw) (2 ^ (150 - scaleExponent raw)) := by
      simp only [dec4Magnitude, if_neg hp]
    have he : ((scaleExponent raw : ℤ) - 150) = -((150 - scaleExponent raw : ℕ) : ℤ) := by omega
    have hx : 10000 * exactMagnitude raw =
        ((10000 * significand raw : ℕ) : ℚ) / ((2 ^ (150 - scaleExponent raw) : ℕ) : ℚ) := by
      rw [exactMagnitude, he, zpow_neg, zpow_natCast]
      push_cast
      ring
    rw [hx, hm]
    exact isNearestEven_roundHalfEven _ _ (Nat.two_pow_pos _)

/-- Settles O43: DEC4 rounds the magnitude and puts the sign back. -/
theorem dec4IsNearestEven : Obligations.Dec4IsNearestEven := by
  intro raw
  rw [binary32_eq]
  by_cases h255 : exponentField raw = 255
  · rw [if_pos h255, dec4, if_pos h255]
    exact ⟨fun _ => rfl, nofun⟩
  · rw [if_neg h255, dec4, if_neg h255]
    refine ⟨nofun, fun x hx => ⟨_, rfl, ?_⟩⟩
    obtain rfl := Option.some.inj hx
    have hmag := isNearestEven_dec4Magnitude raw
    rw [signFactor]
    cases signBit raw with
    | false =>
      rw [if_neg Bool.false_ne_true, if_neg Bool.false_ne_true, one_mul]
      exact hmag
    | true =>
      rw [if_pos rfl, if_pos rfl, neg_one_mul, mul_neg]
      exact isNearestEven_neg _ _ hmag

end Sys2Proof.Machine
end

section
/-! PROOFS. The statements of `43_command_encoder.md` section 3, `44_rx_pipeline.md` and `60_exceptions.md` section 1 about a
single step: commands as received frames and as a wire bit, finite parameters, CODEC, the error numbers, and the operations
that write no state. -/

namespace Sys2Proof.Machine

open Sys2Proof.Safety

/-! ### Commands (R161, R163) -/

/-- Settles O48, command by command: the inner buffer is an envelope, the outer length stands where its marker should, and
no layout has so short a frame. -/
theorem encodedCommandsValidate : Obligations.EncodedCommandsValidate := by
  intro c
  cases c with
  | connect => exact ⟨by decide, by decide, by decide⟩
  | disconnect => exact ⟨by decide, by decide, by decide⟩

/-- Settles O49, over the two commands and the two values of the wire. -/
theorem commandWireBit : Obligations.CommandWireBit := by
  refine ⟨fun c => ?_, by decide, fun c => ?_⟩
  · cases c with
    | connect => rfl
    | disconnect => rfl
  · cases c with
    | connect => rfl
    | disconnect => rfl

/-! ### A received byte with finite parameters -/

/-- A byte that pushes nothing out and has no room is dropped, and the flag set. -/
theorem step_rx_overflow (s : State) (b : Byte) (t : Timestamp) (rest : List InputEvent) (hs : s.stage = .idle)
    (ho : s.ovf = false) (hi : s.inputs = .rx b t :: rest) (hc : ¬ (b = sync0 ∧ s.buf ≠ []))
    (hfull : s.params.bufCap = some s.buf.length) :
    step s = .next { s with inputs := rest, now := t, stage := .idle, ovf := true } := by
  rw [step_event s (.rx b t) rest hs hi, handleEvent_rx b t { s with inputs := rest } ho, if_neg hc,
    feed_overflow b { s with inputs := rest, now := t } hc hfull]

/-- Settles O51: the drop is `step_rx_overflow`, the wrap is `nextSeq_bounded` in the report behind `step_rx_split`. -/
theorem receiveStepWithFiniteParameters : Obligations.ReceiveStepWithFiniteParameters := by
  intro s b t rest hs ho hi hp
  refine ⟨fun hc hfull => ?_, fun hsync hb w r fl hw hok => ?_⟩
  · rw [step_rx_overflow s b t rest hs ho hi hc hfull, hs]
  · subst hsync
    rw [step_rx_split s t rest hs ho hi hp hb, reported_of_codec_ok _ _ r fl hok, nextSeq_bounded _ _ w hw, hs, sync0_eq]

/-! ### CODEC (R175) -/

/-- The step of a candidate handed on is its report. -/
theorem step_of_candidate (s : State) (f : Frame) (h : s.stage = .candidate f) : step s = .next (reported f s) := by
  rw [step_pending s (by rw [h]; exact Stage.noConfusion), settle_candidate s f h]

/-- Settles O52: CODEC is VALIDATE and then DECODE, and the step reports its answer. -/
theorem codecIsValidateThenDecode : Obligations.CodecIsValidateThenDecode := by
  intro s f h
  refine ⟨fun e he => ?_, fun hv e he => ?_, fun hv r fl hok => ?_⟩
  · have hcodec := codec_of_validate_error f e he
    exact ⟨hcodec, by rw [step_of_candidate s f h, reported_of_codec_error f s e hcodec]⟩
  · have hcodec := (codec_of_validate_ok f hv).trans he
    exact ⟨hcodec, by rw [step_of_candidate s f h, reported_of_codec_error f s e hcodec]⟩
  · have hcodec := (codec_of_validate_ok f hv).trans hok
    refine ⟨hcodec, _, step_of_candidate s f h, ?_⟩
    rw [reported_of_codec_ok f s r fl hcodec]
    exact ⟨rfl, rfl, rfl⟩

/-- Settles O54. -/
theorem errorKindsAreNumbered : Obligations.ErrorKindsAreNumbered := by
  refine ⟨rfl, fun _ _ => rfl, rfl, rfl, fun e => ?_⟩
  cases e <;> exact Nat.succ_ne_zero _

/-! ### The operations that write no state -/

/-- VALIDATE and DECODE write the hand-off alone. -/
theorem exec_codec_writes_stage (f : Frame) (s t : State)
    (h : exec (.validate f) s = .next t ∨ exec (.decodeExtrema f) s = .next t ∨ exec (.decodeDual f) s = .next t) :
    ∃ g, t = { s with stage := g } := by
  rcases h with h | h | h
  · cases hv : validate f with
    | ok u =>
      rw [exec_validate_ok f s hv] at h
      cases h
      exact ⟨_, rfl⟩
    | error e =>
      rw [exec_validate_error f s e hv] at h
      cases h
      exact ⟨_, rfl⟩
  · rw [exec_decodeExtrema, deliver_eq] at h
    cases h
    exact ⟨_, rfl⟩
  · rw [exec_decodeDual, deliver_eq] at h
    cases h
    exact ⟨_, rfl⟩

/-- ENCODE writes the outputs alone. -/
theorem exec_encode_writes_tx (s t : State) (h : exec .encodeConnect s = .next t ∨ exec .encodeDisconnect s = .next t) :
    ∃ w, t = { s with outputs := s.outputs ++ [.tx w] } := by
  rcases h with h | h <;> cases h <;> exact ⟨_, rfl⟩

/-- Settles O58: `exec_codec_writes_stage` and `exec_encode_writes_tx` leave every other field as it was. -/
theorem codecAndEncoderWriteNoState : Obligations.CodecAndEncoderWriteNoState := by
  refine ⟨fun f s t h => ?_, fun s t h => ?_⟩
  · obtain ⟨g, rfl⟩ := exec_codec_writes_stage f s t h
    exact ⟨rfl, fun _ => rfl, rfl, rfl, rfl, rfl, rfl, rfl⟩
  · obtain ⟨w, rfl⟩ := exec_encode_writes_tx s t h
    exact ⟨rfl, fun _ => rfl, rfl, rfl, rfl, rfl, rfl, rfl, w, rfl⟩

end Sys2Proof.Machine
end
